-- ==== Sys2Proof/Word.lean ====
section
/-! DEFINITION. The two widths of the machine: a byte and a register (00_scope.md R7). -/

namespace Sys2Proof

/-- A byte is 8 bits (R7). -/
abbrev Byte := BitVec 8

/-- A register, a literal and an address operand are 32 bits (R2, R7). -/
abbrev Word := BitVec 32

end Sys2Proof
end

