-- ==== Sys2Proof/Syntax.lean ====
section
/-! DEFINITION. The names of the machine: registers (10_state.md R21), operand kinds (30_encoding.md
R81), opcodes and instructions (R84), and the four fault causes (60_exceptions.md R246 to R249). -/

namespace Sys2Proof

/-- The eight registers, a closed enumeration (10_state.md R20, R21): no other register can be named,
so an instruction term cannot hold a bad register id. -/
inductive Reg where
  | r0 | r1 | r2 | r3
  /-- The accumulator, left operand of the conditional jumps (R23). -/
  | acc
  /-- The instruction pointer (R24). -/
  | ip
  /-- The stack pointer (R26). -/
  | sp
  /-- The frame pointer (R27). -/
  | fp
deriving DecidableEq, Repr

/-- All registers, in the order of 10_state.md R21. -/
def Reg.all : List Reg := [.r0, .r1, .r2, .r3, .acc, .ip, .sp, .fp]

/-- The operand kinds that take bytes (30_encoding.md R81). -/
inductive OperandKind where
  | literal
  | register
  /-- A byte address in working memory. -/
  | memory
  /-- A byte address in the program image. -/
  | address
deriving DecidableEq, Repr

/-- The 28 opcodes, in the order of 30_encoding.md R84. -/
inductive Opcode where
  | halt
  | pushLit | pushReg | popReg
  | movLitReg | movRegReg | movMemReg | movLitMem | movRegMem | movMemMem
  | addLitReg | subLitReg | addRegReg | subRegReg | addRegRegReg
  | incReg | decReg | incMem | decMem
  | jmp | jmpNe | jmpEq | jmpGt | jmpLt | jmpGe | jmpLe
  | call | ret
deriving DecidableEq, Repr

/-- All opcodes, in the order of R84. -/
def Opcode.all : List Opcode :=
  [.halt, .pushLit, .pushReg, .popReg, .movLitReg, .movRegReg, .movMemReg, .movLitMem, .movRegMem,
   .movMemMem, .addLitReg, .subLitReg, .addRegReg, .subRegReg] ++
  [.addRegRegReg, .incReg, .decReg, .incMem, .decMem, .jmp, .jmpNe, .jmpEq, .jmpGt, .jmpLt, .jmpGe,
   .jmpLe, .call, .ret]

/-- A decoded instruction: one constructor per row of spec/opcode_table.json, its operands in encoding
order, sources first and destination last (30_encoding.md R84, R95). -/
inductive Instr where
  /-- HALT. -/
  | halt
  /-- PUSH_LIT. -/
  | pushLit (lit : Word)
  /-- PUSH_REG. -/
  | pushReg (src : Reg)
  /-- POP_REG. -/
  | popReg (dst : Reg)
  /-- MOV_LIT_REG. -/
  | movLitReg (lit : Word) (dst : Reg)
  /-- MOV_REG_REG. -/
  | movRegReg (src dst : Reg)
  /-- MOV_MEM_REG (other name LOAD_MEM_REG). -/
  | movMemReg (mem : Word) (dst : Reg)
  /-- MOV_LIT_MEM (other name STORE_LIT_MEM). -/
  | movLitMem (lit mem : Word)
  /-- MOV_REG_MEM (other name STORE_REG_MEM). -/
  | movRegMem (src : Reg) (mem : Word)
  /-- MOV_MEM_MEM (other name STORE_MEM_MEM). -/
  | movMemMem (srcmem dstmem : Word)
  /-- ADD_LIT_REG. -/
  | addLitReg (lit : Word) (dst : Reg)
  /-- SUB_LIT_REG. -/
  | subLitReg (lit : Word) (dst : Reg)
  /-- ADD_REG_REG. -/
  | addRegReg (src dst : Reg)
  /-- SUB_REG_REG. -/
  | subRegReg (src dst : Reg)
  /-- ADD_REG_REG_REG. -/
  | addRegRegReg (srcA srcB dst : Reg)
  /-- INC_REG. -/
  | incReg (reg : Reg)
  /-- DEC_REG. -/
  | decReg (reg : Reg)
  /-- INC_MEM. -/
  | incMem (mem : Word)
  /-- DEC_MEM. -/
  | decMem (mem : Word)
  /-- JMP. -/
  | jmp (target : Word)
  /-- JMP_NE. -/
  | jmpNe (reg : Reg) (target : Word)
  /-- JMP_EQ. -/
  | jmpEq (reg : Reg) (target : Word)
  /-- JMP_GT. -/
  | jmpGt (reg : Reg) (target : Word)
  /-- JMP_LT. -/
  | jmpLt (reg : Reg) (target : Word)
  /-- JMP_GE. -/
  | jmpGe (reg : Reg) (target : Word)
  /-- JMP_LE. -/
  | jmpLe (reg : Reg) (target : Word)
  /-- CALL (other name CALL_LIT). -/
  | call (target : Word)
  /-- RETURN. -/
  | ret
deriving DecidableEq, Repr

/-- The opcode of an instruction. -/
def Instr.opcode : Instr → Opcode
  | .halt => .halt
  | .pushLit _ => .pushLit
  | .pushReg _ => .pushReg
  | .popReg _ => .popReg
  | .movLitReg _ _ => .movLitReg
  | .movRegReg _ _ => .movRegReg
  | .movMemReg _ _ => .movMemReg
  | .movLitMem _ _ => .movLitMem
  | .movRegMem _ _ => .movRegMem
  | .movMemMem _ _ => .movMemMem
  | .addLitReg _ _ => .addLitReg
  | .subLitReg _ _ => .subLitReg
  | .addRegReg _ _ => .addRegReg
  | .subRegReg _ _ => .subRegReg
  | .addRegRegReg _ _ _ => .addRegRegReg
  | .incReg _ => .incReg
  | .decReg _ => .decReg
  | .incMem _ => .incMem
  | .decMem _ => .decMem
  | .jmp _ => .jmp
  | .jmpNe _ _ => .jmpNe
  | .jmpEq _ _ => .jmpEq
  | .jmpGt _ _ => .jmpGt
  | .jmpLt _ _ => .jmpLt
  | .jmpGe _ _ => .jmpGe
  | .jmpLe _ _ => .jmpLe
  | .call _ => .call
  | .ret => .ret

/-- The fault causes that the FAULT record can hold (60_exceptions.md R246 to R249). An address is a
natural number, since an operand fetch can name one above `2^32 - 1` (R247). -/
inductive FaultCause where
  /-- The byte at `addr` of the program image is no opcode (R246). -/
  | unknownOpcode (addr : Nat) (byte : Byte)
  /-- A fetch of `width` bytes at `addr` does not fit in the program image (R247). -/
  | progOutOfBounds (addr width : Nat)
  /-- A data or stack access of `width` bytes at `addr` does not fit in working memory (R248). -/
  | memOutOfBounds (addr width : Nat)
  /-- The register-id byte at `addr` of the program image names no register (R249). -/
  | regOutOfBounds (addr : Nat) (id : Byte)
deriving DecidableEq, Repr

end Sys2Proof
end

