-- ==== Sys2Proof/Config.lean ====
section
/-! DEFINITION. The implementation parameters of the spec (00_scope.md R8 to R12): the two maps at
the spec's defaults, and the parameters of a session as a record. Nothing of the machine reads a value
that the spec leaves free (40_execution_cycle.md R144), so there is no opaque constant here. -/

namespace Sys2Proof.Config

/-- `OPCODE_MAP`, the column "byte" of 30_encoding.md R84. UNVERIFIED against the repository, unsafe
for its own binaries (assumption log 1). -/
def opcodeMap : Opcode → Byte
  | .halt => 0x00
  | .pushLit => 0x01
  | .pushReg => 0x02
  | .popReg => 0x03
  | .movLitReg => 0x04
  | .movRegReg => 0x05
  | .movMemReg => 0x06
  | .movLitMem => 0x07
  | .movRegMem => 0x08
  | .movMemMem => 0x09
  | .addLitReg => 0x0A
  | .subLitReg => 0x0B
  | .addRegReg => 0x0C
  | .subRegReg => 0x0D
  | .addRegRegReg => 0x0E
  | .incReg => 0x0F
  | .decReg => 0x10
  | .incMem => 0x11
  | .decMem => 0x12
  | .jmp => 0x13
  | .jmpNe => 0x14
  | .jmpEq => 0x15
  | .jmpGt => 0x16
  | .jmpLt => 0x17
  | .jmpGe => 0x18
  | .jmpLe => 0x19
  | .call => 0x1A
  | .ret => 0x1B

/-- `REGID_MAP`, the column "id" of 10_state.md R21. UNVERIFIED against the repository, unsafe for its
own binaries (assumption log 1). -/
def regIdMap : Reg → Byte
  | .r0 => 0
  | .r1 => 1
  | .r2 => 2
  | .r3 => 3
  | .acc => 4
  | .ip => 5
  | .sp => 6
  | .fp => 7

/-- The largest size either memory may have, `2^32` bytes (00_scope.md R8, R9). -/
def maxSize : Nat := 4294967296

/-- The parameters reset takes: `MEM_SIZE`, `INIT_REGS` and `SP_RESET` (R8, R11). -/
structure Params where
  memSize : Nat
  r0 : Word
  r1 : Word
  r2 : Word
  r3 : Word
  acc : Word
  spReset : Word
deriving DecidableEq, Repr

/-- A session with `MEM_SIZE = n` and every other parameter at its default: `INIT_REGS` zero and
`SP_RESET = MEM_SIZE mod 2^32` (R11). -/
def Params.ofMemSize (n : Nat) : Params :=
  { memSize := n, r0 := 0, r1 := 0, r2 := 0, r3 := 0, acc := 0, spReset := BitVec.ofNat 32 n }

/-- The defaults: `MEM_SIZE = 0x10000` (R8). UNVERIFIED against the repository, unsafe for it
(assumption log 3). -/
def Params.standard : Params := Params.ofMemSize 0x10000

/-- The default of `ENTRY`, the address the host passes to `run` (R10). -/
def entry : Word := 0

end Sys2Proof.Config
end

