-- ==== Sys2Proof/Decode.lean ====
section
/-! DEFINITION. The decoder, total on any bytes (30_encoding.md R93), then the encoder (R82, R112),
both written from the format of each opcode (R82, R84). -/

namespace Sys2Proof

/-! ### Byte order (20_memory.md R51) -/

/-- The unsigned number that bytes stand for, the first the most significant (R51, R53). -/
def beValue : List Byte → Nat
  | [] => 0
  | b :: rest => b.toNat * 256 ^ rest.length + beValue rest

/-- The low `8 * n` bits of `v` as `n` bytes, the most significant first (R51, R54). -/
def beBytes : Nat → Nat → List Byte
  | 0, _ => []
  | n + 1, v => BitVec.ofNat 8 (v / 256 ^ n) :: beBytes n v

/-- The four bytes of a 32-bit operand (R86, R112). -/
def wordBytes (v : Word) : List Byte := beBytes 4 v.toNat

/-! ### The maps, both ways (R84; 10_state.md R21) -/

/-- The byte of an opcode (R84). -/
def opcodeByte (op : Opcode) : Byte := Config.opcodeMap op

/-- The opcode a byte stands for, none outside the table (R84, R89). -/
def opcodeOfByte (b : Byte) : Option Opcode := Opcode.all.find? fun op => decide (opcodeByte op = b)

/-- The id byte of a register (10_state.md R21). -/
def regByte (r : Reg) : Byte := Config.regIdMap r

/-- The register an id byte names, none above 7 (R88, R90). All eight bits are significant. -/
def regOfByte (b : Byte) : Option Reg := Reg.all.find? fun r => decide (regByte r = b)

/-! ### Formats and lengths (R81, R82, R84) -/

/-- Encoded width of an operand in bytes (R81). -/
def OperandKind.width : OperandKind → Nat
  | .literal => 4
  | .register => 1
  | .memory => 4
  | .address => 4

/-- The operand kinds of an opcode, in order: its format in R82 and R84. -/
def Opcode.operands : Opcode → List OperandKind
  | .halt => []
  | .pushLit => [.literal]
  | .pushReg => [.register]
  | .popReg => [.register]
  | .movLitReg => [.literal, .register]
  | .movRegReg => [.register, .register]
  | .movMemReg => [.memory, .register]
  | .movLitMem => [.literal, .memory]
  | .movRegMem => [.register, .memory]
  | .movMemMem => [.memory, .memory]
  | .addLitReg => [.literal, .register]
  | .subLitReg => [.literal, .register]
  | .addRegReg => [.register, .register]
  | .subRegReg => [.register, .register]
  | .addRegRegReg => [.register, .register, .register]
  | .incReg => [.register]
  | .decReg => [.register]
  | .incMem => [.memory]
  | .decMem => [.memory]
  | .jmp => [.address]
  | .jmpNe => [.register, .address]
  | .jmpEq => [.register, .address]
  | .jmpGt => [.register, .address]
  | .jmpLt => [.register, .address]
  | .jmpGe => [.register, .address]
  | .jmpLe => [.register, .address]
  | .call => [.address]
  | .ret => []

/-- `LEN`: one opcode byte and the operand bytes (R80, R84, R85). -/
def Opcode.len (op : Opcode) : Nat := 1 + (op.operands.map OperandKind.width).sum

/-- The length of an instruction, from its opcode alone (R85). -/
def Instr.len (i : Instr) : Nat := i.opcode.len

/-! ### Fetch (20_memory.md R57, R58) -/

/-- `ProgRead(addr, n)` with its bounds check on unbounded naturals (R57, R58). -/
def progRead (prog : List Byte) (addr n : Nat) : Except FaultCause Nat :=
  if addr + n ≤ prog.length then .ok (beValue ((prog.drop addr).take n))
  else .error (.progOutOfBounds addr n)

/-- The opcode byte or a register-id byte, at offset `k` (R88; 40_execution_cycle.md R132, R133). -/
def fetchByte (prog : List Byte) (pc0 k : Nat) : Except FaultCause Byte := do
  let v ← progRead prog (pc0 + k) 1
  .ok (BitVec.ofNat 8 v)

/-- A literal or address operand, at offset `k` (R86, R87). -/
def fetchWord (prog : List Byte) (pc0 k : Nat) : Except FaultCause Word := do
  let v ← progRead prog (pc0 + k) 4
  .ok (BitVec.ofNat 32 v)

/-- The register-id check at offset `k` (R90; 40_execution_cycle.md R134). -/
def checkReg (pc0 k : Nat) (id : Byte) : Except FaultCause Reg :=
  match regOfByte id with
  | some r => .ok r
  | none => .error (.regOutOfBounds (pc0 + k) id)

/-! ### One decoder per shape of operands: all fetches in operand order, then all register checks
(R93, R133, R134) -/

/-- Format `R`. -/
def decodeR (mk : Reg → Instr) (prog : List Byte) (pc0 : Nat) : Except FaultCause Instr := do
  let a ← fetchByte prog pc0 1
  let r ← checkReg pc0 1 a
  .ok (mk r)

/-- Format `RR`. -/
def decodeRR (mk : Reg → Reg → Instr) (prog : List Byte) (pc0 : Nat) : Except FaultCause Instr := do
  let a ← fetchByte prog pc0 1
  let b ← fetchByte prog pc0 2
  let ra ← checkReg pc0 1 a
  let rb ← checkReg pc0 2 b
  .ok (mk ra rb)

/-- Format `RRR`. -/
def decodeRRR (mk : Reg → Reg → Reg → Instr) (prog : List Byte) (pc0 : Nat) :
    Except FaultCause Instr := do
  let a ← fetchByte prog pc0 1
  let b ← fetchByte prog pc0 2
  let c ← fetchByte prog pc0 3
  let ra ← checkReg pc0 1 a
  let rb ← checkReg pc0 2 b
  let rc ← checkReg pc0 3 c
  .ok (mk ra rb rc)

/-- Formats `L`, `M` and `A`. -/
def decodeW (mk : Word → Instr) (prog : List Byte) (pc0 : Nat) : Except FaultCause Instr := do
  let v ← fetchWord prog pc0 1
  .ok (mk v)

/-- Formats `LR` and `MR`. -/
def decodeWR (mk : Word → Reg → Instr) (prog : List Byte) (pc0 : Nat) : Except FaultCause Instr := do
  let v ← fetchWord prog pc0 1
  let a ← fetchByte prog pc0 5
  let r ← checkReg pc0 5 a
  .ok (mk v r)

/-- Formats `RM` and `RA`. -/
def decodeRW (mk : Reg → Word → Instr) (prog : List Byte) (pc0 : Nat) : Except FaultCause Instr := do
  let a ← fetchByte prog pc0 1
  let v ← fetchWord prog pc0 2
  let r ← checkReg pc0 1 a
  .ok (mk r v)

/-- Formats `LM` and `MM`. -/
def decodeWW (mk : Word → Word → Instr) (prog : List Byte) (pc0 : Nat) :
    Except FaultCause Instr := do
  let v ← fetchWord prog pc0 1
  let w ← fetchWord prog pc0 5
  .ok (mk v w)

/-- The operands of an opcode at `pc0`, by its format (R82, R84). -/
def decodeOperands : Opcode → List Byte → Nat → Except FaultCause Instr
  | .halt => fun _ _ => .ok .halt
  | .pushLit => decodeW .pushLit
  | .pushReg => decodeR .pushReg
  | .popReg => decodeR .popReg
  | .movLitReg => decodeWR .movLitReg
  | .movRegReg => decodeRR .movRegReg
  | .movMemReg => decodeWR .movMemReg
  | .movLitMem => decodeWW .movLitMem
  | .movRegMem => decodeRW .movRegMem
  | .movMemMem => decodeWW .movMemMem
  | .addLitReg => decodeWR .addLitReg
  | .subLitReg => decodeWR .subLitReg
  | .addRegReg => decodeRR .addRegReg
  | .subRegReg => decodeRR .subRegReg
  | .addRegRegReg => decodeRRR .addRegRegReg
  | .incReg => decodeR .incReg
  | .decReg => decodeR .decReg
  | .incMem => decodeW .incMem
  | .decMem => decodeW .decMem
  | .jmp => decodeW .jmp
  | .jmpNe => decodeRW .jmpNe
  | .jmpEq => decodeRW .jmpEq
  | .jmpGt => decodeRW .jmpGt
  | .jmpLt => decodeRW .jmpLt
  | .jmpGe => decodeRW .jmpGe
  | .jmpLe => decodeRW .jmpLe
  | .call => decodeW .call
  | .ret => fun _ _ => .ok .ret

/-- `decode(PROG, pc0)` (R93): an instruction, or the first fault in the order of 60_exceptions.md
R253. -/
def decode (prog : List Byte) (pc0 : Nat) : Except FaultCause Instr := do
  let b ← fetchByte prog pc0 0
  match opcodeOfByte b with
  | none => .error (.unknownOpcode pc0 b)
  | some op => decodeOperands op prog pc0

/-! ### The encoder (R82, R84, R112) -/

/-- The operand bytes of an instruction, in operand order. -/
def operandBytes : Instr → List Byte
  | .halt => []
  | .pushLit lit => wordBytes lit
  | .pushReg src => [regByte src]
  | .popReg dst => [regByte dst]
  | .movLitReg lit dst => wordBytes lit ++ [regByte dst]
  | .movRegReg src dst => [regByte src, regByte dst]
  | .movMemReg mem dst => wordBytes mem ++ [regByte dst]
  | .movLitMem lit mem => wordBytes lit ++ wordBytes mem
  | .movRegMem src mem => regByte src :: wordBytes mem
  | .movMemMem srcmem dstmem => wordBytes srcmem ++ wordBytes dstmem
  | .addLitReg lit dst => wordBytes lit ++ [regByte dst]
  | .subLitReg lit dst => wordBytes lit ++ [regByte dst]
  | .addRegReg src dst => [regByte src, regByte dst]
  | .subRegReg src dst => [regByte src, regByte dst]
  | .addRegRegReg srcA srcB dst => [regByte srcA, regByte srcB, regByte dst]
  | .incReg reg => [regByte reg]
  | .decReg reg => [regByte reg]
  | .incMem mem => wordBytes mem
  | .decMem mem => wordBytes mem
  | .jmp target => wordBytes target
  | .jmpNe reg target => regByte reg :: wordBytes target
  | .jmpEq reg target => regByte reg :: wordBytes target
  | .jmpGt reg target => regByte reg :: wordBytes target
  | .jmpLt reg target => regByte reg :: wordBytes target
  | .jmpGe reg target => regByte reg :: wordBytes target
  | .jmpLe reg target => regByte reg :: wordBytes target
  | .call target => wordBytes target
  | .ret => []

/-- The bytes of an instruction: its opcode byte, then its operands (R80, R112). -/
def encode (i : Instr) : List Byte := opcodeByte i.opcode :: operandBytes i

/-! ### The table's numbering of an instruction's bits -/

/-- The longest instruction, 9 bytes (R80). -/
def maxLen : Nat := 9

/-- Nine bytes, of which byte `k` is bits `8k+7` to `8k` of `w`, every bit from `nbits` up being 0. -/
def tableBytes (nbits w : Nat) : List Byte :=
  (List.range maxLen).map fun k => BitVec.ofNat 8 (w % 2 ^ nbits / 256 ^ k)

/-- The instruction the decoder reads from an instruction whose bits are `w`, numbered as
spec/opcode_table.json numbers them. -/
def decodeTableWord (nbits w : Nat) : Option Instr :=
  match decode (tableBytes nbits w) 0 with
  | .ok i => some i
  | .error _ => none

end Sys2Proof
end

