-- ==== Sys2Proof/Machine/State.lean ====
section
/-! DEFINITION. The machine's state as plain data (10_state.md section 1), the reset state, and the
outcomes that are not a next state. -/

namespace Sys2Proof.Machine

/-- One value for each of the eight registers (10_state.md R20, R21, R30). -/
structure RegFile (α : Type) where
  r0 : α
  r1 : α
  r2 : α
  r3 : α
  acc : α
  ip : α
  sp : α
  fp : α
deriving DecidableEq, Repr

/-- The run state (10_state.md R33). -/
inductive RunState where
  | running
  | halted
deriving DecidableEq, Repr

/-- The run mode (10_state.md R35). It changes nothing an instruction computes. -/
inductive RunMode where
  | normal
  | debug
deriving DecidableEq, Repr

/-- Working memory: address and byte pairs, addresses strictly rising, and no byte equal to what an
unlisted address reads as, which is 0 (10_state.md R38, R40; 20_memory.md R50). Log entry 7. -/
abbrev Memory := List Host.Cell

/-- The canonical form: addresses strictly rising and no listed byte equal to 0. -/
def Memory.wf : Memory → Bool
  | [] => true
  | [c] => decide (c.2 ≠ 0)
  | c :: d :: rest => decide (c.2 ≠ 0) && decide (c.1 < d.1) && Memory.wf (d :: rest)

/-- The machine's state (10_state.md section 1), with the two parameters of a session that the step
reads: the program image and the size of working memory. -/
structure State where
  /-- R0 to R3, ACC, IP, SP and FP (R20 to R27). -/
  regs : RegFile Word
  /-- `MOD`: the modified bit of each register (R37). -/
  modified : RegFile Bool
  /-- `MEM`, working memory (R38). -/
  mem : Memory
  /-- `MEM_SIZE`, constant in a session (00_scope.md R8; 20_memory.md R50). Log entry 3. -/
  memSize : Nat
  /-- `PROG`, the program image, its length being `PROG_SIZE` (00_scope.md R9). Log entry 2. -/
  prog : List Byte
  /-- `RUN` (R33). -/
  run : RunState
  /-- `FAULT`: none, or the one fault of this run (R34). -/
  fault : Option FaultCause
  /-- `MODE` (R35). -/
  mode : RunMode
deriving DecidableEq, Repr

/-- Why the model stops outside the machine's own fault mechanism. A fault of the MACHINE is not one of
these: it is a next state, with RUN Halted and FAULT recorded (60_exceptions.md R250, log entry 5). No step
and no instruction raises any of these. -/
inductive Fault where
  /-- Raised by a host access to working memory that does not fit (70_reset_and_hazards.md R288: the
  host's error, which changes nothing in the machine). Safe: the host is told and no state results. -/
  | hostAccessOutOfBounds (addr width : Nat)
deriving DecidableEq, Repr

/-- Why the model gives no meaning. -/
inductive Refusal where
  /-- Raised by exec for an instruction that has no meaning yet. Safe. No arm of exec raises it: every
  instruction has its meaning. -/
  | notModelled (mnemonic : String)
  /-- Raised by the host's load, memory write and register set, which the spec allows only while RUN is
  Halted (70_reset_and_hazards.md R287, R288, R293), when it is Running. Safe: the spec says the host does not do it. -/
  | hostWhileRunning
  /-- Raised by the host's load for an image of more than `2^32` bytes (00_scope.md R9). Safe: no such
  image exists. -/
  | imageTooLong
deriving DecidableEq, Repr

/-- The state after reset with given parameters (10_state.md R40; 70_reset_and_hazards.md R280), and
before any load: the image is empty (DESIGN CHOICE, unsafe, log entry 2). -/
def State.resetWith (p : Config.Params) : State :=
  { regs := { r0 := p.r0, r1 := p.r1, r2 := p.r2, r3 := p.r3, acc := p.acc, ip := 0,
              sp := p.spReset, fp := p.spReset }
    modified := { r0 := false, r1 := false, r2 := false, r3 := false, acc := false, ip := false,
                  sp := false, fp := false }
    mem := []
    memSize := p.memSize
    prog := []
    run := .halted
    fault := none
    mode := .normal }

/-- The machine right after reset, at the spec's default parameters (10_state.md R40). -/
def State.reset : State := State.resetWith Config.Params.standard

end Sys2Proof.Machine
end

