-- ==== Sys2Proof/Machine/Ops.lean ====
section
/-! DEFINITION. The named operations over registers, the modified bits, working memory and the stack,
taking a fault, and the common part of every instruction. -/

namespace Sys2Proof.Machine

/-! ### Registers (10_state.md R28, R37) -/

/-- The entry of one register. -/
def RegFile.get {α : Type} (f : RegFile α) : Reg → α
  | .r0 => f.r0
  | .r1 => f.r1
  | .r2 => f.r2
  | .r3 => f.r3
  | .acc => f.acc
  | .ip => f.ip
  | .sp => f.sp
  | .fp => f.fp

/-- The file with one entry replaced. -/
def RegFile.set {α : Type} (f : RegFile α) (r : Reg) (v : α) : RegFile α :=
  match r with
  | .r0 => { f with r0 := v }
  | .r1 => { f with r1 := v }
  | .r2 => { f with r2 := v }
  | .r3 => { f with r3 := v }
  | .acc => { f with acc := v }
  | .ip => { f with ip := v }
  | .sp => { f with sp := v }
  | .fp => { f with fp := v }

/-- `get(reg)`, written `x[i]` in the spec (R28; 00_scope.md R14). -/
def getReg (s : State) (r : Reg) : Word := s.regs.get r

/-- `set(reg, value)`, written `x[i] <- v`: the value, and the register's modified bit (R28, R37). -/
def setReg (s : State) (r : Reg) (v : Word) : State :=
  { s with regs := s.regs.set r v, modified := s.modified.set r true }

/-- `inc(reg, delta)`, wrapping (R28). -/
def incReg (s : State) (r : Reg) (delta : Word) : State := setReg s r (getReg s r + delta)

/-- `dec(reg, delta)`, wrapping (R28). -/
def decReg (s : State) (r : Reg) (delta : Word) : State := setReg s r (getReg s r - delta)

/-- `is_modified(i)` (R37). -/
def isModified (s : State) (r : Reg) : Bool := s.modified.get r

/-- The modified bits all clear, what `reset_modified()` writes (R37). -/
def noneModified : RegFile Bool :=
  { r0 := false, r1 := false, r2 := false, r3 := false, acc := false, ip := false, sp := false,
    fp := false }

/-! ### Memory as bytes (20_memory.md R50, R51) -/

/-- What an address that the list does not hold reads as: the reset contents (10_state.md R40). -/
def unlistedByte : Byte := 0

/-- The byte at an address. The bounds check is made by the accesses that call this. -/
def Memory.readByte (m : Memory) (a : Nat) : Byte :=
  match m with
  | [] => unlistedByte
  | (k, b) :: rest => if k = a then b else Memory.readByte rest a

/-- An entry put in its place among rising addresses. -/
def Memory.insert (m : Memory) (a : Nat) (b : Byte) : Memory :=
  match m with
  | [] => [(a, b)]
  | (k, c) :: rest => if a < k then (a, b) :: (k, c) :: rest else (k, c) :: Memory.insert rest a b

/-- The memory without an entry for an address. -/
def Memory.erase (m : Memory) (a : Nat) : Memory := m.filter fun c => decide (c.1 ≠ a)

/-- One byte written, the canonical form kept: writing 0 removes the entry. -/
def Memory.writeByte (m : Memory) (a : Nat) (b : Byte) : Memory :=
  if b = unlistedByte then m.erase a else (m.erase a).insert a b

/-- The `n` bytes from an address up, lowest address first (R56). -/
def Memory.readBytes (m : Memory) (a : Nat) : Nat → List Byte
  | 0 => []
  | n + 1 => m.readByte a :: Memory.readBytes m (a + 1) n

/-- Bytes written from an address up, lowest address first (R54). -/
def Memory.writeBytes (m : Memory) (a : Nat) : List Byte → Memory
  | [] => m
  | b :: rest => Memory.writeBytes (m.writeByte a b) (a + 1) rest

/-! ### The access primitives with their bounds check (R52 to R57) -/

/-- The bounds check: the sum is on unbounded naturals, it never wraps (R57). -/
def inBounds (s : State) (addr width : Nat) : Bool := decide (addr + width ≤ s.memSize)

/-- `MemRead(addr, n)`: `n` bytes as one big-endian unsigned number (R52, R53, R55, R57). -/
def memRead (s : State) (addr n : Nat) : Except FaultCause Nat :=
  if inBounds s addr n then .ok (beValue (s.mem.readBytes addr n))
  else .error (.memOutOfBounds addr n)

/-- `MemWrite(addr, n, v)`: the low `8*n` bits of `v`, big-endian (R54, R55, R57). -/
def memWrite (s : State) (addr n v : Nat) : Except FaultCause State :=
  if inBounds s addr n then .ok { s with mem := s.mem.writeBytes addr (beBytes n v) }
  else .error (.memOutOfBounds addr n)

/-- `MemRead(addr, 4)`, the width of every data access of an instruction (R53, R60). -/
def memRead32 (s : State) (addr : Nat) : Except FaultCause Word := do
  let v ← memRead s addr 4
  .ok (BitVec.ofNat 32 v)

/-- `MemWrite(addr, 4, v)` (R54, R60). -/
def memWrite32 (s : State) (addr : Nat) (v : Word) : Except FaultCause State :=
  memWrite s addr 4 v.toNat

/-! ### The stack (20_memory.md R62, R63) -/

/-- `push(v)`: the new address wraps, the write is checked, then SP moves (R62). -/
def push (s : State) (v : Word) : Except FaultCause State := do
  let a := getReg s .sp - 4
  let t ← memWrite32 s a.toNat v
  .ok (setReg t .sp a)

/-- `pop()`: the word at SP, and the state with SP moved up (R63). -/
def pop (s : State) : Except FaultCause (Word × State) := do
  let v ← memRead32 s (getReg s .sp).toNat
  .ok (v, incReg s .sp 4)

/-- `x[r] <- pop()`: SP moves first, then the register is written (R63; 90_conflicts.md C7). -/
def popInto (s : State) (r : Reg) : Except FaultCause State := do
  let p ← pop s
  .ok (setReg p.2 r p.1)

/-! ### Taking a fault (60_exceptions.md R250) -/

/-- `raise <Fault>(info)`, given the state at the START of the step: RUN and FAULT change and nothing
else does, so the fault is precise. There is no return from a fault (R255): only the host's start goes on. -/
def raiseFault (s : State) (f : FaultCause) : State := { s with run := .halted, fault := some f }

/-! ### The common part of a step (40_execution_cycle.md R132 to R136) -/

/-- Fetch and decode of the instruction at IP (R132 to R134). -/
def fetchInstr (s : State) : Except FaultCause Instr := decode s.prog (getReg s .ip).toNat

/-- The advance: `x[IP] <- (pc0 + LEN) mod 2^32`, a register write like any other (R135; 10_state.md
R37). -/
def advance (op : Opcode) (s : State) : State := incReg s .ip (BitVec.ofNat 32 op.len)

/-- An instruction: the advance, then its effect, and if that raises a fault, the fault taken in the state
before the advance (R135, R136, R130). RUN is the step's to test, not this one's (log entry 6). -/
def execute (op : Opcode) (effect : State → Except FaultCause State) (s : State) :
    Host.Outcome State Fault Refusal :=
  match effect (advance op s) with
  | .ok t => .next t
  | .error f => .next (raiseFault s f)

end Sys2Proof.Machine
end

