-- ==== Sys2Proof/Machine/Operands.lean ====
section
/-! DEFINITION. What each kind of operand means to an instruction (30_encoding.md R81, R86 to R88). -/

namespace Sys2Proof.Machine

/-- A LITERAL is used as it is: no extension, no scaling (R86). -/
def literalValue (lit : Word) : Word := lit

/-- A REGISTER named as a source, read after the advance of IP (R88; 40_execution_cycle.md R137). -/
def sourceValue (s : State) (r : Reg) : Word := getReg s r

/-- A REGISTER named as a destination; a write to IP is a jump (R88; 40_execution_cycle.md R138). -/
def writeDest (s : State) (r : Reg) (v : Word) : State := setReg s r v

/-- The effective address of a MEMORY operand: its value, absolute (R87; 42_mov.md R170). -/
def memAddress (mem : Word) : Nat := mem.toNat

/-- The word a MEMORY operand names. -/
def loadOperand (s : State) (mem : Word) : Except FaultCause Word := memRead32 s (memAddress mem)

/-- A word stored where a MEMORY operand says. -/
def storeOperand (s : State) (mem : Word) (v : Word) : Except FaultCause State :=
  memWrite32 s (memAddress mem) v

/-- `pc <- target` for an ADDRESS operand: absolute and unchecked (R87; 44_jump.md R205, R206). -/
def jumpTo (s : State) (target : Word) : State := setReg s .ip target

end Sys2Proof.Machine
end

