-- ==== Sys2Proof/Machine/Arith.lean ====
section
/-! DEFINITION. ADD, SUB, INC and DEC on registers and memory, all modulo `2^32` (43_arith.md R185). -/

namespace Sys2Proof.Machine

/-- ADD_LIT_REG (R186). -/
def execAddLitReg (lit : Word) (dst : Reg) (s : State) : Host.Outcome State Fault Refusal :=
  execute .addLitReg (fun t => .ok (writeDest t dst (sourceValue t dst + literalValue lit))) s

/-- SUB_LIT_REG (R187): the register is the minuend. -/
def execSubLitReg (lit : Word) (dst : Reg) (s : State) : Host.Outcome State Fault Refusal :=
  execute .subLitReg (fun t => .ok (writeDest t dst (sourceValue t dst - literalValue lit))) s

/-- ADD_REG_REG (R188). -/
def execAddRegReg (src dst : Reg) (s : State) : Host.Outcome State Fault Refusal :=
  execute .addRegReg (fun t => .ok (writeDest t dst (sourceValue t dst + sourceValue t src))) s

/-- SUB_REG_REG (R189): the destination is the minuend. -/
def execSubRegReg (src dst : Reg) (s : State) : Host.Outcome State Fault Refusal :=
  execute .subRegReg (fun t => .ok (writeDest t dst (sourceValue t dst - sourceValue t src))) s

/-- ADD_REG_REG_REG (R190). -/
def execAddRegRegReg (srcA srcB dst : Reg) (s : State) : Host.Outcome State Fault Refusal :=
  execute .addRegRegReg
    (fun t => .ok (writeDest t dst (sourceValue t srcA + sourceValue t srcB))) s

/-- INC_REG (R191). -/
def execIncReg (reg : Reg) (s : State) : Host.Outcome State Fault Refusal :=
  execute .incReg (fun t => .ok (incReg t reg 1)) s

/-- DEC_REG (R192). -/
def execDecReg (reg : Reg) (s : State) : Host.Outcome State Fault Refusal :=
  execute .decReg (fun t => .ok (decReg t reg 1)) s

/-- INC_MEM (R193). -/
def execIncMem (mem : Word) (s : State) : Host.Outcome State Fault Refusal :=
  execute .incMem (fun t => do
    let v ← loadOperand t mem
    storeOperand t mem (v + 1)) s

/-- DEC_MEM (R194). -/
def execDecMem (mem : Word) (s : State) : Host.Outcome State Fault Refusal :=
  execute .decMem (fun t => do
    let v ← loadOperand t mem
    storeOperand t mem (v - 1)) s

end Sys2Proof.Machine
end

