-- ==== Sys2Proof/Machine/CallReturn.lean ====
section
/-! DEFINITION. CALL and RETURN with their 28-byte frame (45_call_return.md). -/

namespace Sys2Proof.Machine

/-- Values pushed one after another, the first deepest. -/
def pushAll (s : State) : List Word → Except FaultCause State
  | [] => .ok s
  | v :: rest => do
    let t ← push s v
    pushAll t rest

/-- Registers popped one after another, each written before the next pop. -/
def popAll (s : State) : List Reg → Except FaultCause State
  | [] => .ok s
  | r :: rest => do
    let t ← popInto s r
    popAll t rest

/-- The registers a frame holds, in the order CALL pushes them; IP, after the advance, is the return
address (R226, R227). -/
def frameRegs : List Reg := [.ip, .r0, .r1, .r2, .r3, .acc, .fp]

/-- The effect of CALL (R226): all seven values are read first, then pushed, then FP and IP are written. -/
def callEffect (target : Word) (t : State) : Except FaultCause State := do
  let u ← pushAll t (frameRegs.map (sourceValue t))
  .ok (jumpTo (setReg u .fp (getReg u .sp)) target)

/-- CALL (R226). -/
def execCall (target : Word) (s : State) : Host.Outcome State Fault Refusal :=
  execute .call (callEffect target) s

/-- The effect of RETURN (R228): SP from FP, then the frame popped in the opposite order, IP last. -/
def returnEffect (t : State) : Except FaultCause State :=
  popAll (setReg t .sp (getReg t .fp)) frameRegs.reverse

/-- RETURN (R228). -/
def execRet (s : State) : Host.Outcome State Fault Refusal :=
  execute .ret returnEffect s

end Sys2Proof.Machine
end

