-- ==== Sys2Proof/Machine/Flags.lean ====
section
/-! DEFINITION. The machine has no flags and no condition codes (10_state.md R31): no instruction writes
one. What stands in their place is the comparison of a conditional jump, made at the jump from the current
registers (44_jump.md R214, R216). -/

namespace Sys2Proof.Machine

/-- The six relations of the conditional jumps (R214). -/
inductive Relation where
  | ne | eq | gt | lt | ge | le
deriving DecidableEq, Repr

/-- Whether a relation holds of two words as UNSIGNED numbers, the left one ACC (R214, R216). -/
def relationHolds (rel : Relation) (left right : Word) : Bool :=
  match rel with
  | .ne => decide (left.toNat ≠ right.toNat)
  | .eq => decide (left.toNat = right.toNat)
  | .gt => decide (left.toNat > right.toNat)
  | .lt => decide (left.toNat < right.toNat)
  | .ge => decide (left.toNat ≥ right.toNat)
  | .le => decide (left.toNat ≤ right.toNat)

/-- The condition of a jump: ACC on the left, the named register on the right (R214). -/
def jumpCondition (s : State) (rel : Relation) (r : Reg) : Bool :=
  relationHolds rel (getReg s .acc) (getReg s r)

end Sys2Proof.Machine
end

