-- ==== Sys2Proof/Machine/Jump.lean ====
section
/-! DEFINITION. JMP and the six conditional jumps (44_jump.md). -/

namespace Sys2Proof.Machine

/-- The effect of a conditional jump: `pc <- target` if the relation holds, else nothing, the advance being
made already (R205, R214). -/
def condJump (rel : Relation) (reg : Reg) (target : Word) (t : State) : Except FaultCause State :=
  .ok (if jumpCondition t rel reg then jumpTo t target else t)

/-- JMP (R207). -/
def execJmp (target : Word) (s : State) : Host.Outcome State Fault Refusal :=
  execute .jmp (fun t => .ok (jumpTo t target)) s

/-- JMP_NE (R208). -/
def execJmpNe (reg : Reg) (target : Word) (s : State) : Host.Outcome State Fault Refusal :=
  execute .jmpNe (condJump .ne reg target) s

/-- JMP_EQ (R209). -/
def execJmpEq (reg : Reg) (target : Word) (s : State) : Host.Outcome State Fault Refusal :=
  execute .jmpEq (condJump .eq reg target) s

/-- JMP_GT (R210). -/
def execJmpGt (reg : Reg) (target : Word) (s : State) : Host.Outcome State Fault Refusal :=
  execute .jmpGt (condJump .gt reg target) s

/-- JMP_LT (R211). -/
def execJmpLt (reg : Reg) (target : Word) (s : State) : Host.Outcome State Fault Refusal :=
  execute .jmpLt (condJump .lt reg target) s

/-- JMP_GE (R212). -/
def execJmpGe (reg : Reg) (target : Word) (s : State) : Host.Outcome State Fault Refusal :=
  execute .jmpGe (condJump .ge reg target) s

/-- JMP_LE (R213). -/
def execJmpLe (reg : Reg) (target : Word) (s : State) : Host.Outcome State Fault Refusal :=
  execute .jmpLe (condJump .le reg target) s

end Sys2Proof.Machine
end

