-- ==== Sys2Proof/Machine/Mov.lean ====
section
/-! DEFINITION. The six MOV instructions (42_mov.md). -/

namespace Sys2Proof.Machine

/-- MOV_LIT_REG (R171). -/
def execMovLitReg (lit : Word) (dst : Reg) (s : State) : Host.Outcome State Fault Refusal :=
  execute .movLitReg (fun t => .ok (writeDest t dst (literalValue lit))) s

/-- MOV_REG_REG (R172). -/
def execMovRegReg (src dst : Reg) (s : State) : Host.Outcome State Fault Refusal :=
  execute .movRegReg (fun t => .ok (writeDest t dst (sourceValue t src))) s

/-- MOV_MEM_REG (R173). -/
def execMovMemReg (mem : Word) (dst : Reg) (s : State) : Host.Outcome State Fault Refusal :=
  execute .movMemReg (fun t => do
    let v ← loadOperand t mem
    .ok (writeDest t dst v)) s

/-- MOV_LIT_MEM (R174). -/
def execMovLitMem (lit mem : Word) (s : State) : Host.Outcome State Fault Refusal :=
  execute .movLitMem (fun t => storeOperand t mem (literalValue lit)) s

/-- MOV_REG_MEM (R175). -/
def execMovRegMem (src : Reg) (mem : Word) (s : State) : Host.Outcome State Fault Refusal :=
  execute .movRegMem (fun t => storeOperand t mem (sourceValue t src)) s

/-- MOV_MEM_MEM (R176): the whole word is read before any byte is written. -/
def execMovMemMem (srcmem dstmem : Word) (s : State) : Host.Outcome State Fault Refusal :=
  execute .movMemMem (fun t => do
    let v ← loadOperand t srcmem
    storeOperand t dstmem v) s

end Sys2Proof.Machine
end

