-- ==== Sys2Proof/Machine/Stack.lean ====
section
/-! DEFINITION. PUSH_LIT, PUSH_REG and POP_REG (41_stack.md). -/

namespace Sys2Proof.Machine

/-- PUSH_LIT (R156). -/
def execPushLit (lit : Word) (s : State) : Host.Outcome State Fault Refusal :=
  execute .pushLit (fun t => push t (literalValue lit)) s

/-- PUSH_REG (R157): the register is read before SP moves. -/
def execPushReg (src : Reg) (s : State) : Host.Outcome State Fault Refusal :=
  execute .pushReg (fun t => push t (sourceValue t src)) s

/-- POP_REG (R158): the register is written after SP moves, so popping into SP leaves the word. -/
def execPopReg (dst : Reg) (s : State) : Host.Outcome State Fault Refusal :=
  execute .popReg (fun t => popInto t dst) s

end Sys2Proof.Machine
end

