-- ==== Sys2Proof/Machine/System.lean ====
section
/-! DEFINITION. HALT, the only system instruction (40_execution_cycle.md R140, R141). -/

namespace Sys2Proof.Machine

/-- HALT (R140): RUN becomes Halted, FAULT stays as it was, IP is past the byte. -/
def execHalt (s : State) : Host.Outcome State Fault Refusal :=
  execute .halt (fun t => .ok { t with run := .halted }) s

end Sys2Proof.Machine
end

