-- ==== Sys2Proof/Machine/Dispatch.lean ====
section
/-! DEFINITION. One arm per instruction (40_execution_cycle.md R136). -/

namespace Sys2Proof.Machine

def exec (i : Instr) (s : State) : Host.Outcome State Fault Refusal :=
  match i with
  | .halt => Sys2Proof.Machine.execHalt s
  | .pushLit lit => Sys2Proof.Machine.execPushLit lit s
  | .pushReg src => Sys2Proof.Machine.execPushReg src s
  | .popReg dst => Sys2Proof.Machine.execPopReg dst s
  | .movLitReg lit dst => Sys2Proof.Machine.execMovLitReg lit dst s
  | .movRegReg src dst => Sys2Proof.Machine.execMovRegReg src dst s
  | .movMemReg mem dst => Sys2Proof.Machine.execMovMemReg mem dst s
  | .movLitMem lit mem => Sys2Proof.Machine.execMovLitMem lit mem s
  | .movRegMem src mem => Sys2Proof.Machine.execMovRegMem src mem s
  | .movMemMem srcmem dstmem => Sys2Proof.Machine.execMovMemMem srcmem dstmem s
  | .addLitReg lit dst => Sys2Proof.Machine.execAddLitReg lit dst s
  | .subLitReg lit dst => Sys2Proof.Machine.execSubLitReg lit dst s
  | .addRegReg src dst => Sys2Proof.Machine.execAddRegReg src dst s
  | .subRegReg src dst => Sys2Proof.Machine.execSubRegReg src dst s
  | .addRegRegReg srcA srcB dst => Sys2Proof.Machine.execAddRegRegReg srcA srcB dst s
  | .incReg reg => Sys2Proof.Machine.execIncReg reg s
  | .decReg reg => Sys2Proof.Machine.execDecReg reg s
  | .incMem mem => Sys2Proof.Machine.execIncMem mem s
  | .decMem mem => Sys2Proof.Machine.execDecMem mem s
  | .jmp target => Sys2Proof.Machine.execJmp target s
  | .jmpNe reg target => Sys2Proof.Machine.execJmpNe reg target s
  | .jmpEq reg target => Sys2Proof.Machine.execJmpEq reg target s
  | .jmpGt reg target => Sys2Proof.Machine.execJmpGt reg target s
  | .jmpLt reg target => Sys2Proof.Machine.execJmpLt reg target s
  | .jmpGe reg target => Sys2Proof.Machine.execJmpGe reg target s
  | .jmpLe reg target => Sys2Proof.Machine.execJmpLe reg target s
  | .call target => Sys2Proof.Machine.execCall target s
  | .ret => Sys2Proof.Machine.execRet s

end Sys2Proof.Machine
end

