-- ==== Sys2Proof/Machine/Step.lean ====
section
/-! DEFINITION. One step (40_execution_cycle.md R131 to R139, R145), and where an instruction's bytes lie
so that the next step fetches them. -/

namespace Sys2Proof.Machine

/-- `step` (R145). A halted machine's step changes nothing (R131); a fault of fetch or decode is taken in
the state the step began with (R250). -/
def step (s : State) : Host.Outcome State Fault Refusal :=
  match s.run with
  | .halted => .next s
  | .running =>
    match fetchInstr s with
    | .error f => .next (raiseFault s f)
    | .ok i => exec i s

/-- The program image with some bytes in place at an address, zeros before them where the image is too
short. -/
def placeBytes (prog : List Byte) (a : Nat) (bs : List Byte) : List Byte :=
  prog.take a ++ List.replicate (a - prog.length) 0 ++ bs ++ prog.drop (a + bs.length)

/-- The state with an instruction, numbered as spec/opcode_table.json numbers its bits, at IP in the
program image, and RUN Running, since a halted machine fetches nothing. It stands for the host's load and
start (DESIGN CHOICE, unsafe, log entry 4). -/
def State.withFetchWord (s : State) (nbits w : Nat) : State :=
  { s with prog := placeBytes s.prog (getReg s .ip).toNat (tableBytes nbits w), run := .running }

end Sys2Proof.Machine
end

