-- ==== Sys2Proof/Machine/Assembler.lean ====
section
/-! DEFINITION. The assembler: its input language and output bytes (30_encoding.md R105 to R116). It is
toolchain, not hardware (00_scope.md R5): no step calls it, it only makes program images. -/

namespace Sys2Proof.Machine

/-! ### Errors, all fatal to the whole assembly (R114; 60_exceptions.md R258) -/

/-- Why an assembly fails; no bytes come out (R114). -/
inductive AsmError where
  | unknownMnemonic
  | malformedNumber
  | unknownRegister
  | wrongOperands
  | duplicateLabel
  | undefinedLabel
deriving DecidableEq, Repr

/-! ### Lines and tokens (R105) -/

/-- A text cut at every character that satisfies `isCut`. -/
def cutAt (isCut : Char → Bool) : List Char → List (List Char)
  | [] => [[]]
  | c :: rest =>
    match cutAt isCut rest with
    | [] => [[c]]
    | piece :: more => if isCut c then [] :: piece :: more else (c :: piece) :: more

/-- Lines are separated by newline characters (R105). -/
def linesOf (text : List Char) : List (List Char) := cutAt (fun c => decide (c = '\n')) text

/-- Tokens are separated by one or more spaces or tabs (R105). -/
def tokensOf (line : List Char) : List (List Char) :=
  (cutAt (fun c => decide (c = ' ') || decide (c = '\t')) line).filter fun t => !t.isEmpty

/-! ### Numbers (R107) -/

/-- The value of a digit below a base, by its character code: `0` to `9`, and letters of either case from
ten up. -/
def digitValue (base : Nat) (c : Char) : Option Nat :=
  let n := c.toNat
  let d :=
    if 48 ≤ n ∧ n ≤ 57 then n - 48
    else if 65 ≤ n ∧ n ≤ 70 then n - 55
    else if 97 ≤ n ∧ n ≤ 102 then n - 87
    else base
  if d < base then some d else none

/-- Digits read from the left, onto a value already read. -/
def digitsValue (base : Nat) : Nat → List Char → Option Nat
  | acc, [] => some acc
  | acc, c :: rest =>
    match digitValue base c with
    | some d => digitsValue base (acc * base + d) rest
    | none => none

/-- One or more digits. -/
def numeral (base : Nat) (digits : List Char) : Option Nat :=
  if digits.isEmpty then none else digitsValue base 0 digits

/-- `0x` or `0X` and hexadecimal digits, or decimal digits with no leading `0` but for the single digit `0`
(R107). -/
def naturalOf : List Char → Option Nat
  | '0' :: 'x' :: digits => numeral 16 digits
  | '0' :: 'X' :: digits => numeral 16 digits
  | ['0'] => some 0
  | '0' :: _ => none
  | digits => numeral 10 digits

/-- A number that fits in 32 bits (R107). -/
def numberOf (t : List Char) : Except AsmError Word :=
  match naturalOf t with
  | some n => if n < 2 ^ 32 then .ok (BitVec.ofNat 32 n) else .error .malformedNumber
  | none => .error .malformedNumber

/-! ### Operands (R107 to R110) -/

/-- An operand token by its sigil: `$` a literal, `&` a memory address, none a bare name. -/
inductive AsmOperand where
  | literal (v : Word)
  | memory (a : Word)
  | bare (name : List Char)
deriving DecidableEq, Repr

/-- The shape of an operand token (R107, R109). -/
def operandOf : List Char → Except AsmError AsmOperand
  | '$' :: t => do
    let v ← numberOf t
    .ok (.literal v)
  | '&' :: t => do
    let a ← numberOf t
    .ok (.memory a)
  | t => .ok (.bare t)

/-- The operand tokens of a line, in order. -/
def operandsOf : List (List Char) → Except AsmError (List AsmOperand)
  | [] => .ok []
  | t :: rest => do
    let o ← operandOf t
    let os ← operandsOf rest
    .ok (o :: os)

/-- A register's assembler name, in lower case (10_state.md R21). -/
def regName : Reg → List Char
  | .r0 => ['r', '0']
  | .r1 => ['r', '1']
  | .r2 => ['r', '2']
  | .r3 => ['r', '3']
  | .acc => ['a', 'c', 'c']
  | .ip => ['i', 'p']
  | .sp => ['s', 'p']
  | .fp => ['f', 'p']

/-- A bare register name, in either letter case, from the closed set (R108). -/
def registerOf (name : List Char) : Except AsmError Reg :=
  match Reg.all.find? fun r => decide (regName r = name.map Char.toLower) with
  | some r => .ok r
  | none => .error .unknownRegister

/-- Where a jump or a call goes: a label, or `$` and a number (R110). -/
inductive Target where
  | label (name : List Char)
  | address (a : Word)
deriving DecidableEq, Repr

/-- A token in target position: a bare one is always a label (R110). -/
def targetOf : AsmOperand → Except AsmError Target
  | .literal v => .ok (.address v)
  | .memory _ => .error .wrongOperands
  | .bare name => .ok (.label name)

/-! ### Instructions (R111) -/

/-- The mnemonics (R105, R111). -/
inductive Mnemonic where
  | halt | push | pop | mov | add | sub | inc | dec | jmp
  | cond (rel : Relation)
  | call | ret
deriving DecidableEq, Repr

/-- A mnemonic in lower case (R105, R111). -/
def mnemonicOf : List Char → Except AsmError Mnemonic
  | ['h', 'a', 'l', 't'] => .ok .halt
  | ['p', 'u', 's', 'h'] => .ok .push
  | ['p', 'o', 'p'] => .ok .pop
  | ['m', 'o', 'v'] => .ok .mov
  | ['a', 'd', 'd'] => .ok .add
  | ['s', 'u', 'b'] => .ok .sub
  | ['i', 'n', 'c'] => .ok .inc
  | ['d', 'e', 'c'] => .ok .dec
  | ['j', 'm', 'p'] => .ok .jmp
  | ['j', 'n', 'e'] => .ok (.cond .ne)
  | ['j', 'e'] => .ok (.cond .eq)
  | ['j', 'g'] => .ok (.cond .gt)
  | ['j', 'l'] => .ok (.cond .lt)
  | ['j', 'g', 'e'] => .ok (.cond .ge)
  | ['j', 'l', 'e'] => .ok (.cond .le)
  | ['c', 'a', 'l', 'l'] => .ok .call
  | ['r', 'e', 't'] => .ok .ret
  | _ => .error .unknownMnemonic

/-- An instruction line: an instruction, or one whose target may still be a label. -/
inductive AsmInstr where
  | plain (i : Instr)
  | jmp (t : Target)
  | cond (rel : Relation) (r : Reg) (t : Target)
  | call (t : Target)
deriving DecidableEq, Repr

/-- The instruction a line shape stands for: the table of R111, every other shape an error. -/
def selectInstr (m : Mnemonic) (ops : List AsmOperand) : Except AsmError AsmInstr :=
  match m, ops with
  | .halt, [] => .ok (.plain .halt)
  | .push, [.literal v] => .ok (.plain (.pushLit v))
  | .push, [.bare r] => do
    let src ← registerOf r
    .ok (.plain (.pushReg src))
  | .pop, [.bare r] => do
    let dst ← registerOf r
    .ok (.plain (.popReg dst))
  | .mov, [.literal v, .bare r] => do
    let dst ← registerOf r
    .ok (.plain (.movLitReg v dst))
  | .mov, [.bare a, .bare b] => do
    let src ← registerOf a
    let dst ← registerOf b
    .ok (.plain (.movRegReg src dst))
  | .mov, [.memory a, .bare r] => do
    let dst ← registerOf r
    .ok (.plain (.movMemReg a dst))
  | .mov, [.literal v, .memory a] => .ok (.plain (.movLitMem v a))
  | .mov, [.bare r, .memory a] => do
    let src ← registerOf r
    .ok (.plain (.movRegMem src a))
  | .mov, [.memory a, .memory b] => .ok (.plain (.movMemMem a b))
  | .add, [.literal v, .bare r] => do
    let dst ← registerOf r
    .ok (.plain (.addLitReg v dst))
  | .sub, [.literal v, .bare r] => do
    let dst ← registerOf r
    .ok (.plain (.subLitReg v dst))
  | .add, [.bare a, .bare b] => do
    let src ← registerOf a
    let dst ← registerOf b
    .ok (.plain (.addRegReg src dst))
  | .sub, [.bare a, .bare b] => do
    let src ← registerOf a
    let dst ← registerOf b
    .ok (.plain (.subRegReg src dst))
  | .add, [.bare a, .bare b, .bare c] => do
    let srcA ← registerOf a
    let srcB ← registerOf b
    let dst ← registerOf c
    .ok (.plain (.addRegRegReg srcA srcB dst))
  | .inc, [.bare r] => do
    let reg ← registerOf r
    .ok (.plain (.incReg reg))
  | .dec, [.bare r] => do
    let reg ← registerOf r
    .ok (.plain (.decReg reg))
  | .inc, [.memory a] => .ok (.plain (.incMem a))
  | .dec, [.memory a] => .ok (.plain (.decMem a))
  | .jmp, [o] => do
    let t ← targetOf o
    .ok (.jmp t)
  | .cond rel, [.bare r, o] => do
    let reg ← registerOf r
    let t ← targetOf o
    .ok (.cond rel reg t)
  | .call, [o] => do
    let t ← targetOf o
    .ok (.call t)
  | .ret, [] => .ok (.plain .ret)
  | _, _ => .error .wrongOperands

/-! ### Lines (R105, R106) -/

/-- What a line that is not empty holds. -/
inductive Item where
  | label (name : List Char)
  | instr (i : AsmInstr)
deriving DecidableEq, Repr

/-- The name before a final `:`, where a token ends in one (R106). -/
def labelName (t : List Char) : Option (List Char) :=
  match t.reverse with
  | ':' :: rest => some rest.reverse
  | _ => none

/-- The item of a line's tokens. A label definition has no further token and a name that is not empty
(DESIGN CHOICE, safe, log entry 13). -/
def itemOf (first : List Char) (more : List (List Char)) : Except AsmError Item :=
  match labelName first with
  | some name => if name.isEmpty || !more.isEmpty then .error .wrongOperands else .ok (.label name)
  | none => do
    let m ← mnemonicOf first
    let ops ← operandsOf more
    let i ← selectInstr m ops
    .ok (.instr i)

/-- The items of the lines, empty lines skipped, the first error in line order stopping all (R105,
R114). -/
def itemsOf : List (List Char) → Except AsmError (List Item)
  | [] => .ok []
  | line :: rest =>
    match tokensOf line with
    | [] => itemsOf rest
    | first :: more => do
      let item ← itemOf first more
      let items ← itemsOf rest
      .ok (item :: items)

/-! ### Labels and emission (R106, R112, R113) -/

/-- The opcode of an instruction line; it fixes the length whatever the target is. -/
def AsmInstr.opcode : AsmInstr → Opcode
  | .plain i => i.opcode
  | .jmp _ => .jmp
  | .cond rel _ _ =>
    match rel with
    | .ne => .jmpNe
    | .eq => .jmpEq
    | .gt => .jmpGt
    | .lt => .jmpLt
    | .ge => .jmpGe
    | .le => .jmpLe
  | .call _ => .call

/-- Every label with the address the next instruction gets, from an address cursor (R106, R112). -/
def labelTable : Nat → List Item → List (List Char × Nat)
  | _, [] => []
  | at_, .label name :: rest => (name, at_) :: labelTable at_ rest
  | at_, .instr i :: rest => labelTable (at_ + i.opcode.len) rest

/-- The address of a target (R113). -/
def resolveTarget (table : List (List Char × Nat)) : Target → Except AsmError Word
  | .address a => .ok a
  | .label name =>
    match table.find? fun e => decide (e.1 = name) with
    | some e => .ok (BitVec.ofNat 32 e.2)
    | none => .error .undefinedLabel

/-- An instruction line with its label resolved (R113). -/
def resolveInstr (table : List (List Char × Nat)) : AsmInstr → Except AsmError Instr
  | .plain i => .ok i
  | .jmp t => do
    let a ← resolveTarget table t
    .ok (.jmp a)
  | .cond rel r t => do
    let a ← resolveTarget table t
    .ok (match rel with
      | .ne => .jmpNe r a
      | .eq => .jmpEq r a
      | .gt => .jmpGt r a
      | .lt => .jmpLt r a
      | .ge => .jmpGe r a
      | .le => .jmpLe r a)
  | .call t => do
    let a ← resolveTarget table t
    .ok (.call a)

/-- The instructions of the items, labels resolved, in order (R112, R113). -/
def resolveItems (table : List (List Char × Nat)) : List Item → Except AsmError (List Instr)
  | [] => .ok []
  | .label _ :: rest => resolveItems table rest
  | .instr i :: rest => do
    let j ← resolveInstr table i
    let js ← resolveItems table rest
    .ok (j :: js)

/-- The instructions of a program; a label defined twice is an error (R106). -/
def programOf (items : List Item) : Except AsmError (List Instr) :=
  let table := labelTable 0 items
  if (table.map Prod.fst).Nodup then resolveItems table items else .error .duplicateLabel

/-- The output: a flat byte string, no header (R112, R116). -/
def emit (is : List Instr) : List Byte := is.flatMap encode

/-- Items assembled. -/
def assembleItems (items : List Item) : Except AsmError (List Byte) := do
  let is ← programOf items
  .ok (emit is)

/-- A source text assembled to a program image (R105 to R116). -/
def assemble (text : List Char) : Except AsmError (List Byte) := do
  let items ← itemsOf (linesOf text)
  assembleItems items

/-- An item with its label target written as a number instead, where the table has it (T1 of
95_test_vectors.md; R113). -/
def preResolve (table : List (List Char × Nat)) : Item → Item
  | .label name => .label name
  | .instr (.plain i) => .instr (.plain i)
  | .instr (.jmp t) => .instr (.jmp (preResolveTarget t))
  | .instr (.cond rel r t) => .instr (.cond rel r (preResolveTarget t))
  | .instr (.call t) => .instr (.call (preResolveTarget t))
where
  preResolveTarget (t : Target) : Target :=
    match resolveTarget table t with
    | .ok a => .address a
    | .error _ => t

end Sys2Proof.Machine
end

