-- ==== Sys2Proof/Machine/HostOps.lean ====
section
/-! DEFINITION. What the host can do to the machine between steps (00_scope.md R15;
70_reset_and_hazards.md R280 to R293), and the run loops. No instruction calls anything here. -/

namespace Sys2Proof.Machine

/-! ### Loading and starting -/

/-- A change the host may make only while RUN is Halted (R287, R288, R293; log entry 8). -/
def whileHalted {α : Type} (s : State) (op : Host.Outcome α Fault Refusal) :
    Host.Outcome α Fault Refusal :=
  match s.run with
  | .halted => op
  | .running => .refused .hostWhileRunning

/-- `reset` with the host's parameters: a new session; nothing of the old state survives (R280). That it is accepted
in every state, a Running one too, is the model's choice (DESIGN CHOICE, log entry 21). -/
def hostReset (p : Config.Params) (_old : State) : State := State.resetWith p

/-- `load(bytes)`: the program image is the byte string and nothing else changes (R287; 00_scope.md R9;
log entry 10). -/
def load (bytes : List Byte) (s : State) : Host.Outcome State Fault Refusal :=
  whileHalted s
    (if bytes.length ≤ Config.maxSize then .next { s with prog := bytes }
     else .refused .imageTooLong)

/-- `start(entry, mode)`: IP (with its modified bit), RUN, FAULT and MODE (10_state.md R41; log entry 9). -/
def start (entry : Word) (mode : RunMode) (s : State) : State :=
  { setReg s .ip entry with run := .running, fault := none, mode := mode }

/-! ### Reads at any time between steps, writes while halted (00_scope.md R15; R288; log entry 20) -/

/-- `read(addr, n)`: an owned copy of `n` bytes (20_memory.md R56), in either run state (00_scope.md R15;
log entry 20). -/
def hostReadBytes (s : State) (addr n : Nat) : Host.Outcome (List Byte) Fault Refusal :=
  if inBounds s addr n then .next (s.mem.readBytes addr n)
  else .fault (.hostAccessOutOfBounds addr n)

/-- A typed read of `n` bytes (R52, R53, R55), in either run state (00_scope.md R15; log entry 20). -/
def hostRead (s : State) (addr n : Nat) : Host.Outcome Nat Fault Refusal :=
  match memRead s addr n with
  | .ok v => .next v
  | .error _ => .fault (.hostAccessOutOfBounds addr n)

/-- `read8(addr)` (R52). -/
def hostRead8 (s : State) (addr : Nat) : Host.Outcome Nat Fault Refusal := hostRead s addr 1

/-- `read16(addr)` (R55). -/
def hostRead16 (s : State) (addr : Nat) : Host.Outcome Nat Fault Refusal := hostRead s addr 2

/-- `read32(addr)` (R53). -/
def hostRead32 (s : State) (addr : Nat) : Host.Outcome Nat Fault Refusal := hostRead s addr 4

/-- A typed write of the low `8*n` bits of `v` (R54, R55). A failing access changes nothing (R288). -/
def hostWrite (addr n v : Nat) (s : State) : Host.Outcome State Fault Refusal :=
  whileHalted s
    (match memWrite s addr n v with
     | .ok t => .next t
     | .error _ => .fault (.hostAccessOutOfBounds addr n))

/-- `write8(addr, value)` (R54). -/
def hostWrite8 (addr v : Nat) (s : State) : Host.Outcome State Fault Refusal := hostWrite addr 1 v s

/-- `write16(addr, value)` (R55). -/
def hostWrite16 (addr v : Nat) (s : State) : Host.Outcome State Fault Refusal := hostWrite addr 2 v s

/-- `write32(addr, value)` (R54). -/
def hostWrite32 (addr v : Nat) (s : State) : Host.Outcome State Fault Refusal := hostWrite addr 4 v s

/-- `set(reg, value)` by the host, a register write like any other (R288; 10_state.md R28, R37; log entry
12). -/
def hostSetReg (r : Reg) (v : Word) (s : State) : Host.Outcome State Fault Refusal :=
  whileHalted s (.next (setReg s r v))

/-! ### Modified bits and inspection (R290, R291; log entry 17) -/

/-- `reset_modified()`: all eight bits to 0 and nothing else (R290). -/
def resetModified (s : State) : State := { s with modified := noneModified }

/-- A snapshot: register values, modified bits, all of working memory, RUN and FAULT (R291). -/
structure Snapshot where
  regs : RegFile Word
  modified : RegFile Bool
  mem : List Byte
  run : RunState
  fault : Option FaultCause
deriving DecidableEq, Repr

/-- Taking a snapshot; the state does not change (R291). -/
def snapshot (s : State) : Snapshot :=
  { regs := s.regs, modified := s.modified, mem := s.mem.readBytes 0 s.memSize, run := s.run,
    fault := s.fault }

/-! ### The run loops (40_execution_cycle.md R139, R142, R143; 70_reset_and_hazards.md R292) -/

/-- `still_running`, what step returns to the host: whether RUN is Running in the state it leaves (R139;
log entry 18). -/
def stillRunning (t : State) : Bool := decide (t.run = .running)

/-- The body of the loop in `NORMAL` mode under fuel: step until it returns false (R142, R143). -/
def runLoop : Nat → State → Host.Outcome State Fault Refusal
  | 0, s => .next s
  | n + 1, s =>
    match step s with
    | .next t => if stillRunning t then runLoop n t else .next t
    | .fault f => .fault f
    | .refused r => .refused r

/-- One turn of the loop in `DEBUG` mode: the bits are cleared, then the step is made (R292). -/
def debugStep (s : State) : Host.Outcome State Fault Refusal := step (resetModified s)

/-- The loop in `DEBUG` mode, with the snapshots it emits, newest last. The number is how many steps the
host lets happen: one, and one more for each acknowledgement it gives (R292, log entry 11). -/
def debugLoop : Nat → State → Host.Outcome (State × List Snapshot) Fault Refusal
  | 0, s => .next (s, [])
  | n + 1, s =>
    match debugStep s with
    | .next t =>
      if stillRunning t then
        match debugLoop n t with
        | .next p => .next (p.1, snapshot t :: p.2)
        | .fault f => .fault f
        | .refused r => .refused r
      else .next (t, [snapshot t])
    | .fault f => .fault f
    | .refused r => .refused r

/-- The state a loop of either mode leaves. -/
def loopOf (mode : RunMode) (fuel : Nat) (s : State) : Host.Outcome State Fault Refusal :=
  match mode with
  | .normal => runLoop fuel s
  | .debug =>
    match debugLoop fuel s with
    | .next p => .next p.1
    | .fault f => .fault f
    | .refused r => .refused r

/-- `run(entry, mode)`: start, then the loop, at most `fuel` steps (R142, R143). -/
def run (fuel : Nat) (entry : Word) (mode : RunMode) (s : State) :
    Host.Outcome State Fault Refusal :=
  loopOf mode fuel (start entry mode s)

end Sys2Proof.Machine
end

