-- ==== Sys2Proof/Safety.lean ====
section
/-! DEFINITION. What claims are about: how a run ends (40_execution_cycle.md R143), the invariant of the
machine, what a step leaves unchanged, and words in memory. -/

namespace Sys2Proof.Machine

/-! ### How a run ends -/

/-- A clean end: Halted with no fault (R143; 00_scope.md glossary). -/
def State.cleanHalt (s : State) : Prop := s.run = .halted ∧ s.fault = none

/-- A faulted end (R143). -/
def State.faulted (s : State) : Prop := s.run = .halted ∧ s.fault ≠ none

/-- A safe state: no fault is recorded. -/
def State.safe (s : State) : Prop := s.fault = none

/-! ### The invariant -/

/-- Working memory is in its canonical form and lies inside its size (10_state.md R38; 20_memory.md R50). -/
def MemoryFits (s : State) : Prop := s.mem.wf = true ∧ ∀ c ∈ s.mem, c.1 < s.memSize

/-- Both memories have a size the spec allows (00_scope.md R8, R9). -/
def SizesFit (s : State) : Prop := s.memSize ≤ Config.maxSize ∧ s.prog.length ≤ Config.maxSize

/-- What a fault record says is true of the machine that holds it (60_exceptions.md R246 to R249). -/
def FaultTrue (s : State) : FaultCause → Prop
  | .unknownOpcode a b => a = (getReg s .ip).toNat ∧ s.prog[a]? = some b ∧ opcodeOfByte b = none
  | .progOutOfBounds a w =>
    s.prog.length < a + w ∧ (w = 1 ∨ w = 4) ∧ (getReg s .ip).toNat ≤ a ∧
      a ≤ (getReg s .ip).toNat + 5
  | .memOutOfBounds a w => s.memSize < a + w ∧ w = 4 ∧ a < 2 ^ 32
  | .regOutOfBounds a b =>
    s.prog[a]? = some b ∧ 7 < b.toNat ∧ (getReg s .ip).toNat < a ∧ a ≤ (getReg s .ip).toNat + 5

/-- The invariant of the machine: sizes and memory as the spec has them, no fault recorded while Running
(10_state.md R34), and a fault record that is true (R246 to R249). -/
def Inv (s : State) : Prop :=
  SizesFit s ∧ MemoryFits s ∧ (s.run = .running → s.fault = none) ∧
    ∀ f, s.fault = some f → FaultTrue s f

/-! ### Frames -/

/-- Everything but registers, modified bits and working memory is as it was. -/
def SameControl (s t : State) : Prop :=
  t.memSize = s.memSize ∧ t.prog = s.prog ∧ t.run = s.run ∧ t.fault = s.fault ∧ t.mode = s.mode

/-- Every byte of working memory reads as it did. -/
def SameMemory (s t : State) : Prop := ∀ a, t.mem.readByte a = s.mem.readByte a

/-- Every byte outside the four bytes at `a` reads as it did. -/
def SameMemoryOutside (s t : State) (a : Nat) : Prop :=
  ∀ b, b < a ∨ a + 4 ≤ b → t.mem.readByte b = s.mem.readByte b

/-- The word at an address, big-endian (20_memory.md R51, R53). -/
def wordAt (s : State) (a : Nat) : Word := BitVec.ofNat 32 (beValue (s.mem.readBytes a 4))

/-- Every register outside a list, and its modified bit, is as it was. -/
def SameRegsBut (s t : State) (changed : List Reg) : Prop :=
  ∀ r, r ∉ changed → getReg t r = getReg s r ∧ isModified t r = isModified s r

/-- The modified bits of the listed registers are set (10_state.md R37; that the advance of IP counts as a
write is the spec's decision D18). -/
def MarksModified (t : State) (changed : List Reg) : Prop := ∀ r ∈ changed, isModified t r = true

/-- What register `r` reads as while an instruction of `len` bytes has its effect: IP reads as the address
of the next instruction, every other register as it stands (40_execution_cycle.md R135, R137). -/
def operandValue (s : State) (len : Word) (r : Reg) : Word :=
  if r = .ip then getReg s .ip + len else getReg s r

/-- What a completed instruction of `len` bytes that writes `v` to one register leaves: that register, IP
past the instruction unless IP is that register, and all else as it was. -/
def WritesReg (s t : State) (len : Word) (dst : Reg) (v : Word) : Prop :=
  getReg t dst = v ∧ (dst ≠ .ip → getReg t .ip = getReg s .ip + len) ∧ SameMemory s t ∧
    SameRegsBut s t [dst, .ip] ∧ MarksModified t [dst, .ip] ∧ SameControl s t

/-- What a completed instruction of `len` bytes that stores the word `v` at address `a` leaves: those four
bytes, IP past the instruction, and all else as it was. -/
def StoresWord (s t : State) (len : Word) (a : Nat) (v : Word) : Prop :=
  wordAt t a = v ∧ SameMemoryOutside s t a ∧ getReg t .ip = getReg s .ip + len ∧
    SameRegsBut s t [.ip] ∧ MarksModified t [.ip] ∧ SameControl s t

/-- What a completed push by an instruction of `len` bytes leaves: the word below the old SP, SP at it, IP
past the instruction, and all else as it was. -/
def PushesWord (s t : State) (len : Word) (v : Word) : Prop :=
  wordAt t (getReg s .sp - 4).toNat = v ∧ SameMemoryOutside s t (getReg s .sp - 4).toNat ∧
    getReg t .sp = getReg s .sp - 4 ∧ getReg t .ip = getReg s .ip + len ∧
    SameRegsBut s t [.sp, .ip] ∧ MarksModified t [.sp, .ip] ∧ SameControl s t

/-- What a completed jump leaves: IP at an address, and all else as it was. -/
def MovesIp (s t : State) (a : Word) : Prop :=
  getReg t .ip = a ∧ SameMemory s t ∧ SameRegsBut s t [.ip] ∧ MarksModified t [.ip] ∧
    SameControl s t

/-- The instruction takes a fault: the state it began in with RUN and FAULT changed (60_exceptions.md
R250, the spec's decision D12). -/
def TakesFault (i : Instr) (s : State) (f : FaultCause) : Prop := exec i s = .next (raiseFault s f)

/-- The registers an instruction writes besides the advance of IP, from the "Registers written" entry of
its rule (40_execution_cycle.md R140; 41_stack.md to 45_call_return.md). -/
def writtenRegs : Instr → List Reg
  | .halt => []
  | .pushLit _ => [.sp]
  | .pushReg _ => [.sp]
  | .popReg dst => [.sp, dst]
  | .movLitReg _ dst => [dst]
  | .movRegReg _ dst => [dst]
  | .movMemReg _ dst => [dst]
  | .movLitMem _ _ => []
  | .movRegMem _ _ => []
  | .movMemMem _ _ => []
  | .addLitReg _ dst => [dst]
  | .subLitReg _ dst => [dst]
  | .addRegReg _ dst => [dst]
  | .subRegReg _ dst => [dst]
  | .addRegRegReg _ _ dst => [dst]
  | .incReg reg => [reg]
  | .decReg reg => [reg]
  | .incMem _ => []
  | .decMem _ => []
  | .jmp _ => [.ip]
  | .jmpNe _ _ => [.ip]
  | .jmpEq _ _ => [.ip]
  | .jmpGt _ _ => [.ip]
  | .jmpLt _ _ => [.ip]
  | .jmpGe _ _ => [.ip]
  | .jmpLe _ _ => [.ip]
  | .call _ => [.sp, .fp, .ip]
  | .ret => [.sp, .fp, .acc, .r3, .r2, .r1, .r0, .ip]

/-- The instructions that may write working memory (10_state.md R38, the table's last column). -/
def mayStore : Instr → Bool
  | .movLitMem _ _ => true
  | .movRegMem _ _ => true
  | .movMemMem _ _ => true
  | .incMem _ => true
  | .decMem _ => true
  | .pushLit _ => true
  | .pushReg _ => true
  | .call _ => true
  | _ => false

/-! ### Bytes of the program image -/

/-- The bytes at an address of a program image. -/
def BytesAt (prog : List Byte) (a : Nat) (bs : List Byte) : Prop :=
  (prog.drop a).take bs.length = bs

/-- A word's four bytes as the rules write them: `v[31:24] v[23:16] v[15:8] v[7:0]` (30_encoding.md R82). -/
def bigEndian (v : Word) : List Byte :=
  [v.extractLsb' 24 8, v.extractLsb' 16 8, v.extractLsb' 8 8, v.extractLsb' 0 8]

/-- An instruction has an encoding: the encoder writes it, and wherever it stands the decoder reads the
instruction from it (30_encoding.md R82, R93). -/
def HasEncoding (i : Instr) (bs : List Byte) : Prop :=
  encode i = bs ∧ ∀ prog pc0, BytesAt prog pc0 bs → decode prog pc0 = .ok i

/-- A register id above 7 at offset `k` is what decoding these bytes reports, wherever they stand
(30_encoding.md R90). -/
def RejectsId (bs : List Byte) (k : Nat) (id : Byte) : Prop :=
  ∀ prog pc0, BytesAt prog pc0 bs → decode prog pc0 = .error (.regOutOfBounds (pc0 + k) id)

/-- The offsets of the REGISTER operands among operands that begin at offset `k` (30_encoding.md R82). -/
def regOffsetsFrom (k : Nat) : List OperandKind → List Nat
  | [] => []
  | .register :: rest => k :: regOffsetsFrom (k + 1) rest
  | o :: rest => regOffsetsFrom (k + o.width) rest

/-- The offsets of an opcode's REGISTER operands, in operand order (R82, R84). -/
def regOffsets (op : Opcode) : List Nat := regOffsetsFrom 1 op.operands

/-- The operand fetches among operands that begin at offset `k`: the offset and the width of each, in operand
order (30_encoding.md R82; 40_execution_cycle.md R133). -/
def operandFetchesFrom (k : Nat) : List OperandKind → List (Nat × Nat)
  | [] => []
  | o :: rest => (k, o.width) :: operandFetchesFrom (k + o.width) rest

/-- The operand fetches of an opcode (R82, R84; 40_execution_cycle.md R133). -/
def operandFetches (op : Opcode) : List (Nat × Nat) := operandFetchesFrom 1 op.operands

/-! ### Assembler lines -/

/-- A mnemonic and its operands, as the assembler reads them from a line, stand for an instruction where the
labels have the addresses of a table (30_encoding.md R111, R113). -/
def AsmLineWith (table : List (List Char × Nat)) (mnemonic : List Char) (ops : List AsmOperand)
    (i : Instr) : Prop :=
  (do
    let m ← mnemonicOf mnemonic
    let a ← selectInstr m ops
    resolveInstr table a) = .ok i

/-- The same for a line that names no label, so that no table matters (R111). -/
def AsmLine (mnemonic : List Char) (ops : List AsmOperand) (i : Instr) : Prop :=
  ∀ table, AsmLineWith table mnemonic ops i

/-- A line with a target, in both its forms: `$` and the address, and a label that has it (R110, R113). -/
def AsmTargetLine (mnemonic : List Char) (ops : List AsmOperand) (target : Word) (i : Instr) : Prop :=
  AsmLine mnemonic (ops ++ [.literal target]) i ∧
    ∀ table name, resolveTarget table (.label name) = .ok target →
      AsmLineWith table mnemonic (ops ++ [.bare name]) i

/-- The item is an instruction line, not a label definition (30_encoding.md R105, R106). -/
def isInstrItem : Item → Bool
  | .label _ => false
  | .instr _ => true

/-! ### Sequences of instructions -/

/-- Instructions one after another, each where the one before left the state. -/
def execAll : List Instr → State → Host.Outcome State Fault Refusal
  | [], s => .next s
  | i :: rest, s =>
    match exec i s with
    | .next t => execAll rest t
    | .fault f => .fault f
    | .refused r => .refused r

/-- The instruction is a push, and the word it pushes when it begins in a state (41_stack.md R156,
R157). -/
def pushedWord (s : State) : Instr → Option Word
  | .pushLit lit => some lit
  | .pushReg src => some (operandValue s 2 src)
  | _ => none

/-- The instruction is a push. -/
def isPush : Instr → Bool
  | .pushLit _ => true
  | .pushReg _ => true
  | _ => false

/-- The words a sequence of pushes pushes, each read where the one before left the state. -/
def pushedWords : List Instr → State → List Word
  | [], _ => []
  | i :: rest, s =>
    match pushedWord s i, exec i s with
    | some v, .next t => v :: pushedWords rest t
    | _, _ => []

/-! ### The modified bits kept out -/

/-- The state with the modified bits cleared: what is left when the display's bits are put out of sight. -/
def State.forgetModified (s : State) : State := resetModified s

/-- An outcome with the modified bits of its state put out of sight. -/
def forgetModifiedOutcome (o : Host.Outcome State Fault Refusal) : Host.Outcome State Fault Refusal :=
  match o with
  | .next t => .next t.forgetModified
  | .fault f => .fault f
  | .refused r => .refused r

end Sys2Proof.Machine
end

