-- ==== Sys2Proof/WellFormed.lean ====
section
/-! DEFINITION. What is well formed: an opcode byte, a register-id byte, the size of a memory, and an
instruction. Registers and opcodes are closed enumerations, so the checks that can refuse something are on
bytes and sizes. Every term of Instr is well formed (assumption log 16). -/

namespace Sys2Proof

/-- The byte is one of the 28 opcodes (30_encoding.md R84, R89). -/
def opcodeKnown (b : Byte) : Bool := (opcodeOfByte b).isSome

/-- The byte names a register (30_encoding.md R88, R90). -/
def regIdKnown (b : Byte) : Bool := (regOfByte b).isSome

/-- `0 <= size <= 2^32`, for either memory (00_scope.md R8, R9). -/
def sizeOk (n : Nat) : Bool := decide (n ≤ Config.maxSize)

/-- The parameters of a session are in range (00_scope.md R8). -/
def paramsOk (p : Config.Params) : Bool := sizeOk p.memSize

/-- The bytes are one whole instruction and nothing more: a known opcode, the length its opcode gives,
and known register ids (30_encoding.md R80, R85, R93). -/
def instrBytesOk (bs : List Byte) : Bool :=
  match decode bs 0 with
  | .ok i => decide (bs.length = i.len)
  | .error _ => false

/-- An instruction is well formed when its bytes are (R80, R85, R93). -/
def Instr.wellFormed (i : Instr) : Bool := instrBytesOk (encode i)

end Sys2Proof
end

