-- ==== Sys2Proof/Certificates/Slice0/Obligations.lean ====
section
/-! DEFINITION. The statements for the provers. Each says in its docstring which rule of spec/ it is from.
A clause that rests on a rule the spec marks as its own decision or inference is named there. -/

open Sys2Proof Sys2Proof.Machine

/-! ### The instructions, one statement each: encoding, assembler line, effect and frame, exceptions -/

/-- HALT (40_execution_cycle.md R140): RUN becomes Halted, IP stands past the byte (spec decision D22), FAULT
and all else as it was. -/
def Obligations.HaltStopsCleanly : Prop := ∀ s : State,
  HasEncoding .halt [0x00] ∧ AsmLine "halt".toList [] .halt ∧
  ∃ t, exec .halt s = .next t ∧ t.run = .halted ∧ t.fault = s.fault ∧
    getReg t .ip = getReg s .ip + 1 ∧ SameMemory s t ∧ SameRegsBut s t [.ip] ∧
    MarksModified t [.ip] ∧ t.memSize = s.memSize ∧ t.prog = s.prog ∧ t.mode = s.mode

/-- PUSH_LIT (41_stack.md R156). The wrapped-address remark of the rule is stated for `MEM_SIZE < 2^32`
(log entry 19). -/
def Obligations.PushLitStoresBelowSp : Prop := ∀ (lit : Word) (s : State),
  HasEncoding (.pushLit lit) (0x01 :: bigEndian lit) ∧
  AsmLine "push".toList [.literal lit] (.pushLit lit) ∧
  ((getReg s .sp - 4).toNat + 4 ≤ s.memSize →
    ∃ t, exec (.pushLit lit) s = .next t ∧ PushesWord s t 5 lit) ∧
  (s.memSize < (getReg s .sp - 4).toNat + 4 →
    TakesFault (.pushLit lit) s (.memOutOfBounds (getReg s .sp - 4).toNat 4)) ∧
  (s.memSize < 2 ^ 32 → (getReg s .sp).toNat < 4 →
    TakesFault (.pushLit lit) s (.memOutOfBounds (getReg s .sp - 4).toNat 4))

/-- PUSH_REG (41_stack.md R157): SP as its operand pushes the old SP, IP the address of the next
instruction (spec decision D9). That the completing clause covers `MEM_SIZE = 2^32` with `SP = 0`, where the
remarks of R62 and R156 say a fault, is the model's (log entry 19). -/
def Obligations.PushRegStoresBelowSp : Prop := ∀ (src : Reg) (s : State),
  HasEncoding (.pushReg src) [0x02, regByte src] ∧
  AsmLine "push".toList [.bare (regName src)] (.pushReg src) ∧
  (∀ id : Byte, 7 < id.toNat → RejectsId [0x02, id] 1 id) ∧
  ((getReg s .sp - 4).toNat + 4 ≤ s.memSize →
    ∃ t, exec (.pushReg src) s = .next t ∧ PushesWord s t 2 (operandValue s 2 src)) ∧
  (s.memSize < (getReg s .sp - 4).toNat + 4 →
    TakesFault (.pushReg src) s (.memOutOfBounds (getReg s .sp - 4).toNat 4))

/-- POP_REG (41_stack.md R158): the register is written after SP moves, so popping into SP leaves the popped
word (spec decision D9, 90_conflicts.md C7). -/
def Obligations.PopRegLoadsFromSp : Prop := ∀ (dst : Reg) (s : State),
  HasEncoding (.popReg dst) [0x03, regByte dst] ∧
  AsmLine "pop".toList [.bare (regName dst)] (.popReg dst) ∧
  (∀ id : Byte, 7 < id.toNat → RejectsId [0x03, id] 1 id) ∧
  ((getReg s .sp).toNat + 4 ≤ s.memSize →
    ∃ t, exec (.popReg dst) s = .next t ∧ getReg t dst = wordAt s (getReg s .sp).toNat ∧
      (dst ≠ .sp → getReg t .sp = getReg s .sp + 4) ∧
      (dst ≠ .ip → getReg t .ip = getReg s .ip + 2) ∧ SameMemory s t ∧
      SameRegsBut s t [.sp, .ip, dst] ∧ MarksModified t [.sp, .ip, dst] ∧ SameControl s t) ∧
  (s.memSize < (getReg s .sp).toNat + 4 →
    TakesFault (.popReg dst) s (.memOutOfBounds (getReg s .sp).toNat 4))

/-- MOV_LIT_REG (42_mov.md R171). -/
def Obligations.MovLitRegWritesLiteral : Prop := ∀ (lit : Word) (dst : Reg) (s : State),
  HasEncoding (.movLitReg lit dst) (0x04 :: bigEndian lit ++ [regByte dst]) ∧
  AsmLine "mov".toList [.literal lit, .bare (regName dst)] (.movLitReg lit dst) ∧
  (∀ id : Byte, 7 < id.toNat → RejectsId (0x04 :: bigEndian lit ++ [id]) 5 id) ∧
  ∃ t, exec (.movLitReg lit dst) s = .next t ∧ WritesReg s t 6 dst lit

/-- MOV_REG_REG (42_mov.md R172): which byte is the source is the spec's decision D6. -/
def Obligations.MovRegRegCopies : Prop := ∀ (src dst : Reg) (s : State),
  HasEncoding (.movRegReg src dst) [0x05, regByte src, regByte dst] ∧
  AsmLine "mov".toList [.bare (regName src), .bare (regName dst)] (.movRegReg src dst) ∧
  (∀ a b : Byte, 7 < a.toNat → RejectsId [0x05, a, b] 1 a) ∧
  (∀ b : Byte, 7 < b.toNat → RejectsId [0x05, regByte src, b] 2 b) ∧
  ∃ t, exec (.movRegReg src dst) s = .next t ∧ WritesReg s t 3 dst (operandValue s 3 src)

/-- MOV_MEM_REG (42_mov.md R173). -/
def Obligations.MovMemRegLoads : Prop := ∀ (mem : Word) (dst : Reg) (s : State),
  HasEncoding (.movMemReg mem dst) (0x06 :: bigEndian mem ++ [regByte dst]) ∧
  AsmLine "mov".toList [.memory mem, .bare (regName dst)] (.movMemReg mem dst) ∧
  (∀ id : Byte, 7 < id.toNat → RejectsId (0x06 :: bigEndian mem ++ [id]) 5 id) ∧
  (mem.toNat + 4 ≤ s.memSize →
    ∃ t, exec (.movMemReg mem dst) s = .next t ∧ WritesReg s t 6 dst (wordAt s mem.toNat)) ∧
  (s.memSize < mem.toNat + 4 →
    TakesFault (.movMemReg mem dst) s (.memOutOfBounds mem.toNat 4))

/-- MOV_LIT_MEM (42_mov.md R174): 9 bytes long. -/
def Obligations.MovLitMemStores : Prop := ∀ (lit mem : Word) (s : State),
  HasEncoding (.movLitMem lit mem) (0x07 :: bigEndian lit ++ bigEndian mem) ∧
  AsmLine "mov".toList [.literal lit, .memory mem] (.movLitMem lit mem) ∧
  (mem.toNat + 4 ≤ s.memSize →
    ∃ t, exec (.movLitMem lit mem) s = .next t ∧ StoresWord s t 9 mem.toNat lit) ∧
  (s.memSize < mem.toNat + 4 →
    TakesFault (.movLitMem lit mem) s (.memOutOfBounds mem.toNat 4))

/-- MOV_REG_MEM (42_mov.md R175). -/
def Obligations.MovRegMemStores : Prop := ∀ (src : Reg) (mem : Word) (s : State),
  HasEncoding (.movRegMem src mem) (0x08 :: regByte src :: bigEndian mem) ∧
  AsmLine "mov".toList [.bare (regName src), .memory mem] (.movRegMem src mem) ∧
  (∀ id : Byte, 7 < id.toNat → RejectsId (0x08 :: id :: bigEndian mem) 1 id) ∧
  (mem.toNat + 4 ≤ s.memSize →
    ∃ t, exec (.movRegMem src mem) s = .next t ∧
      StoresWord s t 6 mem.toNat (operandValue s 6 src)) ∧
  (s.memSize < mem.toNat + 4 →
    TakesFault (.movRegMem src mem) s (.memOutOfBounds mem.toNat 4))

/-- MOV_MEM_MEM (42_mov.md R176): the word stored is the one memory held BEFORE, however the two ranges
overlap (spec decisions D6, D25). -/
def Obligations.MovMemMemCopiesWholeWord : Prop := ∀ (srcmem dstmem : Word) (s : State),
  HasEncoding (.movMemMem srcmem dstmem) (0x09 :: bigEndian srcmem ++ bigEndian dstmem) ∧
  AsmLine "mov".toList [.memory srcmem, .memory dstmem] (.movMemMem srcmem dstmem) ∧
  (srcmem.toNat + 4 ≤ s.memSize → dstmem.toNat + 4 ≤ s.memSize →
    ∃ t, exec (.movMemMem srcmem dstmem) s = .next t ∧
      StoresWord s t 9 dstmem.toNat (wordAt s srcmem.toNat)) ∧
  (s.memSize < srcmem.toNat + 4 →
    TakesFault (.movMemMem srcmem dstmem) s (.memOutOfBounds srcmem.toNat 4)) ∧
  (srcmem.toNat + 4 ≤ s.memSize → s.memSize < dstmem.toNat + 4 →
    TakesFault (.movMemMem srcmem dstmem) s (.memOutOfBounds dstmem.toNat 4))

/-- ADD_LIT_REG (43_arith.md R186). The sum is written as the rule has it, on naturals modulo `2^32`. -/
def Obligations.AddLitRegAdds : Prop := ∀ (lit : Word) (dst : Reg) (s : State),
  HasEncoding (.addLitReg lit dst) (0x0A :: bigEndian lit ++ [regByte dst]) ∧
  AsmLine "add".toList [.literal lit, .bare (regName dst)] (.addLitReg lit dst) ∧
  (∀ id : Byte, 7 < id.toNat → RejectsId (0x0A :: bigEndian lit ++ [id]) 5 id) ∧
  ∃ t, exec (.addLitReg lit dst) s = .next t ∧
    WritesReg s t 6 dst (BitVec.ofNat 32 ((operandValue s 6 dst).toNat + lit.toNat))

/-- SUB_LIT_REG (43_arith.md R187). The difference is written on integers modulo `2^32`. -/
def Obligations.SubLitRegSubtracts : Prop := ∀ (lit : Word) (dst : Reg) (s : State),
  HasEncoding (.subLitReg lit dst) (0x0B :: bigEndian lit ++ [regByte dst]) ∧
  AsmLine "sub".toList [.literal lit, .bare (regName dst)] (.subLitReg lit dst) ∧
  (∀ id : Byte, 7 < id.toNat → RejectsId (0x0B :: bigEndian lit ++ [id]) 5 id) ∧
  ∃ t, exec (.subLitReg lit dst) s = .next t ∧
    WritesReg s t 6 dst
      (BitVec.ofInt 32 (((operandValue s 6 dst).toNat : Int) - (lit.toNat : Int)))

/-- ADD_REG_REG (43_arith.md R188; operand order is the spec's decision D6). -/
def Obligations.AddRegRegAdds : Prop := ∀ (src dst : Reg) (s : State),
  HasEncoding (.addRegReg src dst) [0x0C, regByte src, regByte dst] ∧
  AsmLine "add".toList [.bare (regName src), .bare (regName dst)] (.addRegReg src dst) ∧
  (∀ a b : Byte, 7 < a.toNat → RejectsId [0x0C, a, b] 1 a) ∧
  (∀ b : Byte, 7 < b.toNat → RejectsId [0x0C, regByte src, b] 2 b) ∧
  ∃ t, exec (.addRegReg src dst) s = .next t ∧
    WritesReg s t 3 dst
      (BitVec.ofNat 32 ((operandValue s 3 dst).toNat + (operandValue s 3 src).toNat))

/-- SUB_REG_REG (43_arith.md R189; the destination is the minuend; operand order is the spec's decision
D6). -/
def Obligations.SubRegRegSubtracts : Prop := ∀ (src dst : Reg) (s : State),
  HasEncoding (.subRegReg src dst) [0x0D, regByte src, regByte dst] ∧
  AsmLine "sub".toList [.bare (regName src), .bare (regName dst)] (.subRegReg src dst) ∧
  (∀ a b : Byte, 7 < a.toNat → RejectsId [0x0D, a, b] 1 a) ∧
  (∀ b : Byte, 7 < b.toNat → RejectsId [0x0D, regByte src, b] 2 b) ∧
  ∃ t, exec (.subRegReg src dst) s = .next t ∧
    WritesReg s t 3 dst
      (BitVec.ofInt 32
        (((operandValue s 3 dst).toNat : Int) - ((operandValue s 3 src).toNat : Int)))

/-- ADD_REG_REG_REG (43_arith.md R190; the destination is the last byte, the spec's decision D6). -/
def Obligations.AddRegRegRegAdds : Prop := ∀ (srcA srcB dst : Reg) (s : State),
  HasEncoding (.addRegRegReg srcA srcB dst) [0x0E, regByte srcA, regByte srcB, regByte dst] ∧
  AsmLine "add".toList [.bare (regName srcA), .bare (regName srcB), .bare (regName dst)]
    (.addRegRegReg srcA srcB dst) ∧
  (∀ a b c : Byte, 7 < a.toNat → RejectsId [0x0E, a, b, c] 1 a) ∧
  (∀ b c : Byte, 7 < b.toNat → RejectsId [0x0E, regByte srcA, b, c] 2 b) ∧
  (∀ c : Byte, 7 < c.toNat → RejectsId [0x0E, regByte srcA, regByte srcB, c] 3 c) ∧
  ∃ t, exec (.addRegRegReg srcA srcB dst) s = .next t ∧
    WritesReg s t 4 dst
      (BitVec.ofNat 32 ((operandValue s 4 srcA).toNat + (operandValue s 4 srcB).toNat))

/-- INC_REG (43_arith.md R191). -/
def Obligations.IncRegAddsOne : Prop := ∀ (reg : Reg) (s : State),
  HasEncoding (.incReg reg) [0x0F, regByte reg] ∧
  AsmLine "inc".toList [.bare (regName reg)] (.incReg reg) ∧
  (∀ id : Byte, 7 < id.toNat → RejectsId [0x0F, id] 1 id) ∧
  ∃ t, exec (.incReg reg) s = .next t ∧
    WritesReg s t 2 reg (BitVec.ofNat 32 ((operandValue s 2 reg).toNat + 1))

/-- DEC_REG (43_arith.md R192). -/
def Obligations.DecRegSubtractsOne : Prop := ∀ (reg : Reg) (s : State),
  HasEncoding (.decReg reg) [0x10, regByte reg] ∧
  AsmLine "dec".toList [.bare (regName reg)] (.decReg reg) ∧
  (∀ id : Byte, 7 < id.toNat → RejectsId [0x10, id] 1 id) ∧
  ∃ t, exec (.decReg reg) s = .next t ∧
    WritesReg s t 2 reg (BitVec.ofInt 32 (((operandValue s 2 reg).toNat : Int) - 1))

/-- INC_MEM (43_arith.md R193). -/
def Obligations.IncMemAddsOne : Prop := ∀ (mem : Word) (s : State),
  HasEncoding (.incMem mem) (0x11 :: bigEndian mem) ∧
  AsmLine "inc".toList [.memory mem] (.incMem mem) ∧
  (mem.toNat + 4 ≤ s.memSize →
    ∃ t, exec (.incMem mem) s = .next t ∧
      StoresWord s t 5 mem.toNat (BitVec.ofNat 32 ((wordAt s mem.toNat).toNat + 1))) ∧
  (s.memSize < mem.toNat + 4 → TakesFault (.incMem mem) s (.memOutOfBounds mem.toNat 4))

/-- DEC_MEM (43_arith.md R194). -/
def Obligations.DecMemSubtractsOne : Prop := ∀ (mem : Word) (s : State),
  HasEncoding (.decMem mem) (0x12 :: bigEndian mem) ∧
  AsmLine "dec".toList [.memory mem] (.decMem mem) ∧
  (mem.toNat + 4 ≤ s.memSize →
    ∃ t, exec (.decMem mem) s = .next t ∧
      StoresWord s t 5 mem.toNat
        (BitVec.ofInt 32 (((wordAt s mem.toNat).toNat : Int) - 1))) ∧
  (s.memSize < mem.toNat + 4 → TakesFault (.decMem mem) s (.memOutOfBounds mem.toNat 4))

/-- JMP (44_jump.md R207): any target is accepted, inside the image or outside. -/
def Obligations.JmpGoesToTarget : Prop := ∀ (target : Word) (s : State),
  HasEncoding (.jmp target) (0x13 :: bigEndian target) ∧
  AsmTargetLine "jmp".toList [] target (.jmp target) ∧
  ∃ t, exec (.jmp target) s = .next t ∧ MovesIp s t target

/-- JMP_NE (44_jump.md R208). -/
def Obligations.JmpNeComparesAcc : Prop := ∀ (reg : Reg) (target : Word) (s : State),
  HasEncoding (.jmpNe reg target) (0x14 :: regByte reg :: bigEndian target) ∧
  AsmTargetLine "jne".toList [.bare (regName reg)] target (.jmpNe reg target) ∧
  (∀ id : Byte, 7 < id.toNat → RejectsId (0x14 :: id :: bigEndian target) 1 id) ∧
  ∃ t, exec (.jmpNe reg target) s = .next t ∧
    MovesIp s t (if getReg s .acc ≠ operandValue s 6 reg then target else getReg s .ip + 6)

/-- JMP_EQ (44_jump.md R209). -/
def Obligations.JmpEqComparesAcc : Prop := ∀ (reg : Reg) (target : Word) (s : State),
  HasEncoding (.jmpEq reg target) (0x15 :: regByte reg :: bigEndian target) ∧
  AsmTargetLine "je".toList [.bare (regName reg)] target (.jmpEq reg target) ∧
  (∀ id : Byte, 7 < id.toNat → RejectsId (0x15 :: id :: bigEndian target) 1 id) ∧
  ∃ t, exec (.jmpEq reg target) s = .next t ∧
    MovesIp s t (if getReg s .acc = operandValue s 6 reg then target else getReg s .ip + 6)

/-- JMP_GT (44_jump.md R210): ACC is the left operand, both unsigned. -/
def Obligations.JmpGtComparesAcc : Prop := ∀ (reg : Reg) (target : Word) (s : State),
  HasEncoding (.jmpGt reg target) (0x16 :: regByte reg :: bigEndian target) ∧
  AsmTargetLine "jg".toList [.bare (regName reg)] target (.jmpGt reg target) ∧
  (∀ id : Byte, 7 < id.toNat → RejectsId (0x16 :: id :: bigEndian target) 1 id) ∧
  ∃ t, exec (.jmpGt reg target) s = .next t ∧
    MovesIp s t
      (if (operandValue s 6 reg).toNat < (getReg s .acc).toNat then target else getReg s .ip + 6)

/-- JMP_LT (44_jump.md R211): ACC is the left operand, both unsigned. -/
def Obligations.JmpLtComparesAcc : Prop := ∀ (reg : Reg) (target : Word) (s : State),
  HasEncoding (.jmpLt reg target) (0x17 :: regByte reg :: bigEndian target) ∧
  AsmTargetLine "jl".toList [.bare (regName reg)] target (.jmpLt reg target) ∧
  (∀ id : Byte, 7 < id.toNat → RejectsId (0x17 :: id :: bigEndian target) 1 id) ∧
  ∃ t, exec (.jmpLt reg target) s = .next t ∧
    MovesIp s t
      (if (getReg s .acc).toNat < (operandValue s 6 reg).toNat then target else getReg s .ip + 6)

/-- JMP_GE (44_jump.md R212): ACC is the left operand, both unsigned. -/
def Obligations.JmpGeComparesAcc : Prop := ∀ (reg : Reg) (target : Word) (s : State),
  HasEncoding (.jmpGe reg target) (0x18 :: regByte reg :: bigEndian target) ∧
  AsmTargetLine "jge".toList [.bare (regName reg)] target (.jmpGe reg target) ∧
  (∀ id : Byte, 7 < id.toNat → RejectsId (0x18 :: id :: bigEndian target) 1 id) ∧
  ∃ t, exec (.jmpGe reg target) s = .next t ∧
    MovesIp s t
      (if (operandValue s 6 reg).toNat ≤ (getReg s .acc).toNat then target else getReg s .ip + 6)

/-- JMP_LE (44_jump.md R213): ACC is the left operand, both unsigned. -/
def Obligations.JmpLeComparesAcc : Prop := ∀ (reg : Reg) (target : Word) (s : State),
  HasEncoding (.jmpLe reg target) (0x19 :: regByte reg :: bigEndian target) ∧
  AsmTargetLine "jle".toList [.bare (regName reg)] target (.jmpLe reg target) ∧
  (∀ id : Byte, 7 < id.toNat → RejectsId (0x19 :: id :: bigEndian target) 1 id) ∧
  ∃ t, exec (.jmpLe reg target) s = .next t ∧
    MovesIp s t
      (if (getReg s .acc).toNat ≤ (operandValue s 6 reg).toNat then target else getReg s .ip + 6)

/-- CALL (45_call_return.md R226 and the frame of R227): with `S` the old SP, seven words from `S - 4` down to
`S - 28`, FP and SP at the last. The frame's order is the spec's decision D10. The two fault clauses do not
overlap; the second is stated for `MEM_SIZE < 2^32` (log entry 19). -/
def Obligations.CallPushesFrame : Prop := ∀ (target : Word) (s : State),
  let S := (getReg s .sp).toNat
  HasEncoding (.call target) (0x1A :: bigEndian target) ∧
  AsmTargetLine "call".toList [] target (.call target) ∧
  (28 ≤ S → S ≤ s.memSize →
    ∃ t, exec (.call target) s = .next t ∧ getReg t .ip = target ∧
      getReg t .sp = getReg s .sp - 28 ∧ getReg t .fp = getReg s .sp - 28 ∧
      wordAt t (S - 4) = getReg s .ip + 5 ∧ wordAt t (S - 8) = getReg s .r0 ∧
      wordAt t (S - 12) = getReg s .r1 ∧ wordAt t (S - 16) = getReg s .r2 ∧
      wordAt t (S - 20) = getReg s .r3 ∧ wordAt t (S - 24) = getReg s .acc ∧
      wordAt t (S - 28) = getReg s .fp ∧
      (∀ a, a < S - 28 ∨ S ≤ a → t.mem.readByte a = s.mem.readByte a) ∧
      SameRegsBut s t [.sp, .fp, .ip] ∧ MarksModified t [.sp, .fp, .ip] ∧ SameControl s t) ∧
  (s.memSize < S → s.memSize ≤ 2 ^ 32 →
    TakesFault (.call target) s (.memOutOfBounds (getReg s .sp - 4).toNat 4)) ∧
  (S < 28 → S ≤ s.memSize → s.memSize < 2 ^ 32 →
    TakesFault (.call target) s (.memOutOfBounds (2 ^ 32 - 4 + S % 4) 4))

/-- RETURN (45_call_return.md R228): with `F` the value of FP, the seven words from `F` up, SP at `F + 28`.
The order is the spec's decision D11. The faulting pop is the first of the seven that does not fit (stated for
`MEM_SIZE < 2^32`, log entry 19). -/
def Obligations.ReturnPopsFrame : Prop := ∀ s : State,
  let F := (getReg s .fp).toNat
  HasEncoding .ret [0x1B] ∧ AsmLine "ret".toList [] .ret ∧
  (F + 28 ≤ s.memSize → s.memSize ≤ 2 ^ 32 →
    ∃ t, exec .ret s = .next t ∧ getReg t .sp = getReg s .fp + 28 ∧
      getReg t .fp = wordAt s F ∧ getReg t .acc = wordAt s (F + 4) ∧
      getReg t .r3 = wordAt s (F + 8) ∧ getReg t .r2 = wordAt s (F + 12) ∧
      getReg t .r1 = wordAt s (F + 16) ∧ getReg t .r0 = wordAt s (F + 20) ∧
      getReg t .ip = wordAt s (F + 24) ∧ SameMemory s t ∧
      MarksModified t Reg.all ∧ SameControl s t) ∧
  (s.memSize < 2 ^ 32 → ∀ k, k < 7 → k = 0 ∨ F + 4 * k ≤ s.memSize → s.memSize < F + 4 * k + 4 →
    TakesFault .ret s (.memOutOfBounds (F + 4 * k) 4))

/-! ### The step -/

/-- A step of a running machine runs the instruction its bytes decode to (40_execution_cycle.md R145). exec makes
the advance of IP itself, so the step adds nothing around it (log entry 6). -/
def Obligations.StepRunsDecodedInstruction : Prop := ∀ (s : State) (i : Instr),
  s.run = .running → i.wellFormed = true → decode s.prog (getReg s .ip).toNat = .ok i →
    step s = exec i s

/-- A step of a halted machine changes nothing and returns false (40_execution_cycle.md R131), and so do any
number of them. -/
def Obligations.HaltedStepChangesNothing : Prop := ∀ s : State, s.run = .halted →
  step s = .next s ∧ stillRunning s = false ∧ ∀ n, Host.Core.run Sys2Proof.core n s = .next s

/-- Every step answers a next state: no step stops the model with a Fault or a Refusal, and the step's own
fault is a next state (40_execution_cycle.md R145; 60_exceptions.md R250; log entry 5). -/
def Obligations.EveryStepAnswersNext : Prop := ∀ s : State, ∃ t, step s = .next t

/-- A faulting step changes RUN and FAULT and nothing else, and returns false (60_exceptions.md R250; that the
step has no partial effect is the spec's decision D12). -/
def Obligations.FaultsArePrecise : Prop := ∀ (s t : State) (f : FaultCause),
  s.run = .running → s.fault = none → step s = .next t → t.fault = some f →
    t = { s with run := .halted, fault := some f } ∧ stillRunning t = false

/-- A run ends by HALT, with no fault, or by a fault, and in no other way (10_state.md R33;
40_execution_cycle.md R140). -/
def Obligations.RunEndsOnlyByHaltOrFault : Prop := ∀ s t : State,
  s.run = .running → s.fault = none → step s = .next t →
    (t.run = .halted ↔ decode s.prog (getReg s .ip).toNat = .ok .halt ∨ t.fault ≠ none) ∧
    (t.cleanHalt ↔ decode s.prog (getReg s .ip).toNat = .ok .halt)

/-- Whatever fault fetching or decoding the instruction at IP gives, the step takes it, in the state it began with
(40_execution_cycle.md R145, R133, R134; 60_exceptions.md R247, R249, R250; that nothing else changes is the spec's
decision D12). Two of them outright: IP outside the program image faults at the fetch of the opcode byte (R132;
R247), and a byte outside the opcode map faults as unknown (30_encoding.md R89; R246). -/
def Obligations.BadFetchFaults : Prop := ∀ s : State, s.run = .running →
  let pc0 := (getReg s .ip).toNat
  (∀ f : FaultCause, decode s.prog pc0 = .error f → step s = .next (raiseFault s f)) ∧
  (s.prog.length ≤ pc0 → step s = .next (raiseFault s (.progOutOfBounds pc0 1))) ∧
  (∀ b : Byte, s.prog[pc0]? = some b → 0x1B < b.toNat →
    step s = .next (raiseFault s (.unknownOpcode pc0 b)))

/-- A step without a fault leaves IP past the whole instruction unless the instruction writes IP, and always
marks it modified (40_execution_cycle.md R135, spec decision D8; 10_state.md R37, D18). -/
def Obligations.CompletedStepAdvancesIp : Prop := ∀ (s t : State) (i : Instr),
  s.run = .running → decode s.prog (getReg s .ip).toNat = .ok i → step s = .next t →
  t.fault = none →
    isModified t .ip = true ∧
    (.ip ∉ writtenRegs i → getReg t .ip = getReg s .ip + BitVec.ofNat 32 (encode i).length)

/-! ### What no instruction may do -/

/-- An instruction writes only the registers its rule names, and the advance of IP; of every other register the
value and the modified bit stay (10_state.md R22, R23, R26, R27; 43_arith.md R185). -/
def Obligations.OnlyNamedRegistersChange : Prop := ∀ (i : Instr) (s t : State) (r : Reg),
  exec i s = .next t → r ≠ .ip → r ∉ writtenRegs i →
    getReg t r = getReg s r ∧ isModified t r = isModified s r

/-- Only the instructions of the last column of 10_state.md R38 can change working memory. -/
def Obligations.OnlyStoresChangeMemory : Prop := ∀ (i : Instr) (s t : State),
  exec i s = .next t → mayStore i = false → t.mem = s.mem

/-- No step changes the program image, the size of working memory or the mode, however many are made
(20_memory.md R69; 10_state.md R35). -/
def Obligations.StepsKeepImage : Prop := ∀ (n : Nat) (s t : State),
  Host.Core.run Sys2Proof.core n s = .next t →
    t.prog = s.prog ∧ t.memSize = s.memSize ∧ t.mode = s.mode

/-- The modified bits influence nothing: two states that differ only in them step to states that differ only in
them (10_state.md R37; 70_reset_and_hazards.md R290). -/
def Obligations.ModifiedBitsHaveNoInfluence : Prop := ∀ s u : State,
  s.forgetModified = u.forgetModified →
    forgetModifiedOutcome (step s) = forgetModifiedOutcome (step u)

/-- MODE does not change the result of a step; start sets it (10_state.md R35). -/
def Obligations.ModeHasNoInfluence : Prop := ∀ (s t : State) (m : RunMode) (e : Word),
  (step s = .next t → step { s with mode := m } = .next { t with mode := m }) ∧
  (start e m s).mode = m

/-- Every step keeps the invariant: memory in its canonical form and inside its size, sizes as the spec allows,
no fault while Running, and a fault record that is true of the machine (10_state.md R34, R38; 60_exceptions.md
R246 to R249). It holds for every state with it, reached or not. -/
def Obligations.StepKeepsInvariant : Prop := ∀ s t : State,
  Inv s → Sys2Proof.Machine.step s = .next t → Inv t

/-- Reset meets the invariant whatever parameters in range the host gives, and so does the reset state of the
model (10_state.md R40; 00_scope.md R8). -/
def Obligations.ResetMeetsInvariant : Prop :=
  (∀ p : Config.Params, paramsOk p = true → Inv (State.resetWith p)) ∧ Inv State.reset

/-! ### Encoding -/

/-- Decode and encode agree, for every instruction with every operand, wherever its bytes stand in an image
(30_encoding.md R82, R93). -/
def Obligations.DecodeOfEncode : Prop := ∀ (i : Instr) (before after : List Byte),
  decode (before ++ encode i ++ after) before.length = .ok i

/-- What decodes to an instruction is exactly its encoding, so each run of bytes has one meaning, every bit
counts, and the whole instruction lies in the image (30_encoding.md R85, R88, R91; 40_execution_cycle.md R133). -/
def Obligations.DecodedBytesAreEncoding : Prop := ∀ (prog : List Byte) (pc0 : Nat) (i : Instr),
  decode prog pc0 = .ok i →
    BytesAt prog pc0 (encode i) ∧ pc0 + i.len ≤ prog.length

/-- An instruction cut off by the end of the image faults. The image ends inside one of its operands, at offset
`k` with width `w`: all fetches before it fit, and the fault is that fetch's address and width
(40_execution_cycle.md R133; the order is the spec's decision D13). -/
def Obligations.TruncatedInstructionFaults : Prop :=
  ∀ (prog : List Byte) (pc0 : Nat) (op : Opcode), prog[pc0]? = some (opcodeByte op) →
    (∀ k w, (k, w) ∈ operandFetches op → pc0 + k ≤ prog.length → prog.length < pc0 + k + w →
      decode prog pc0 = .error (.progOutOfBounds (pc0 + k) w)) ∧
    (prog.length < pc0 + op.len →
      ∃ k w, (k, w) ∈ operandFetches op ∧ pc0 + k ≤ prog.length ∧ prog.length < pc0 + k + w)

/-- The first register id above 7, in operand order, is what decoding a whole instruction reports
(30_encoding.md R90; 40_execution_cycle.md R134; the order is the spec's decision D13). -/
def Obligations.FirstBadRegisterIdReported : Prop :=
  ∀ (prog : List Byte) (pc0 : Nat) (op : Opcode) (k : Nat) (id : Byte),
    prog[pc0]? = some (opcodeByte op) → pc0 + op.len ≤ prog.length → k ∈ regOffsets op →
    prog[pc0 + k]? = some id → 7 < id.toNat →
    (∀ j ∈ regOffsets op, j < k → ∀ b : Byte, prog[pc0 + j]? = some b → b.toNat ≤ 7) →
      decode prog pc0 = .error (.regOutOfBounds (pc0 + k) id)

/-- A few words written out from the spec's own encodings decode to the instructions they stand for
(95_test_vectors.md E0 to E27; 30_encoding.md R84), and each of the eight id bytes names its register
(10_state.md R21, in INC_REG's encoding, 43_arith.md R191). -/
def Obligations.SpecWordsDecode : Prop :=
  decode [0x00] 0 = .ok .halt ∧
  decode [0x03, 0x07] 0 = .ok (.popReg .fp) ∧
  decode [0x04, 0xA1, 0xB2, 0xC3, 0xD4, 0x06] 0 = .ok (.movLitReg 0xA1B2C3D4 .sp) ∧
  decode [0x07, 0x00, 0x48, 0x65, 0x79, 0x00, 0x00, 0x12, 0x34] 0 =
    .ok (.movLitMem 0x00486579 0x1234) ∧
  decode [0x0E, 0x00, 0x01, 0x04] 0 = .ok (.addRegRegReg .r0 .r1 .acc) ∧
  decode [0x19, 0x07, 0x00, 0x00, 0x00, 0x20] 0 = .ok (.jmpLe .fp 0x20) ∧
  decode [0x1A, 0x00, 0x00, 0x00, 0x40] 0 = .ok (.call 0x40) ∧
  decode [0x0F, 0x00] 0 = .ok (.incReg .r0) ∧ decode [0x0F, 0x01] 0 = .ok (.incReg .r1) ∧
  decode [0x0F, 0x02] 0 = .ok (.incReg .r2) ∧ decode [0x0F, 0x03] 0 = .ok (.incReg .r3) ∧
  decode [0x0F, 0x04] 0 = .ok (.incReg .acc) ∧ decode [0x0F, 0x05] 0 = .ok (.incReg .ip) ∧
  decode [0x0F, 0x06] 0 = .ok (.incReg .sp) ∧ decode [0x0F, 0x07] 0 = .ok (.incReg .fp)

/-! ### Memory and the stack -/

/-- A 32-bit read is the four bytes big-endian, or the fault when it does not fit; it changes nothing
(20_memory.md R53, R57). -/
def Obligations.MemReadIsBigEndian : Prop := ∀ (s : State) (a : Nat),
  (a + 4 ≤ s.memSize → memRead s a 4 =
    .ok ((s.mem.readByte a).toNat * 2 ^ 24 + (s.mem.readByte (a + 1)).toNat * 2 ^ 16 +
      (s.mem.readByte (a + 2)).toNat * 2 ^ 8 + (s.mem.readByte (a + 3)).toNat)) ∧
  (s.memSize < a + 4 → memRead s a 4 = .error (.memOutOfBounds a 4))

/-- A write of `n` bytes that fits stores the low `8 * n` bits, the most significant byte first, leaves every
other byte and all else alone, keeps the canonical form, and is read back; one that does not fit changes nothing
(20_memory.md R54, R55, R57). -/
def Obligations.MemWriteStoresLowBits : Prop := ∀ (s : State) (a n v : Nat),
  (a + n ≤ s.memSize → ∃ m : Memory, memWrite s a n v = .ok { s with mem := m } ∧
    (∀ k, k < n → m.readByte (a + k) = BitVec.ofNat 8 (v / 2 ^ (8 * (n - 1 - k)))) ∧
    (∀ b, b < a ∨ a + n ≤ b → m.readByte b = s.mem.readByte b) ∧
    (s.mem.wf = true → m.wf = true) ∧
    memRead { s with mem := m } a n = .ok (v % 2 ^ (8 * n))) ∧
  (s.memSize < a + n → memWrite s a n v = .error (.memOutOfBounds a n))

/-- push and pop (20_memory.md R62, R63). -/
def Obligations.PushThenPop : Prop := ∀ (s : State) (v : Word),
  (push s v =
    match memWrite s (getReg s .sp - 4).toNat 4 v.toNat with
    | .ok t => .ok (setReg t .sp (getReg s .sp - 4))
    | .error f => .error f) ∧
  (pop s =
    match memRead s (getReg s .sp).toNat 4 with
    | .ok n => .ok (BitVec.ofNat 32 n, setReg s .sp (getReg s .sp + 4))
    | .error f => .error f) ∧
  (∀ t, push s v = .ok t → ∃ u, pop t = .ok (v, u) ∧ getReg u .sp = getReg s .sp)

/-- Stack symmetry (41_stack.md R159): after N pushes and N pops, SP is back and the pops gave the pushed words
in LIFO order, under the conditions the rule lists: every access fits, and no popped register is SP or IP. A
register popped more than once holds its last pop. -/
def Obligations.PushesThenPopsAreLifo : Prop :=
  ∀ (pushes : List Instr) (pops : List Reg) (s : State),
    (∀ i ∈ pushes, isPush i = true) → pops.length = pushes.length →
    .sp ∉ pops → .ip ∉ pops →
    4 * pushes.length ≤ (getReg s .sp).toNat → (getReg s .sp).toNat ≤ s.memSize →
    ∃ u t, execAll pushes s = .next u ∧ execAll (pops.map .popReg) u = .next t ∧
      (pushedWords pushes s).length = pushes.length ∧ getReg t .sp = getReg s .sp ∧
      ∀ k r, pops[k]? = some r → r ∉ pops.drop (k + 1) →
        (pushedWords pushes s)[pushes.length - 1 - k]? = some (getReg t r)

/-- CALL and RETURN are symmetric (45_call_return.md R231): whatever the callee did, if FP and the 28 bytes of the
frame are as CALL left them, RETURN brings back every register and goes to the instruction after the CALL. -/
def Obligations.ReturnUndoesCall : Prop := ∀ (target : Word) (s t u : State),
  28 ≤ (getReg s .sp).toNat → (getReg s .sp).toNat ≤ s.memSize →
  exec (.call target) s = .next t →
  u.memSize = s.memSize → getReg u .fp = getReg t .fp →
  (∀ a, (getReg s .sp).toNat - 28 ≤ a → a < (getReg s .sp).toNat →
    u.mem.readByte a = t.mem.readByte a) →
  ∃ v, exec .ret u = .next v ∧ (∀ r, r ≠ .ip → getReg v r = getReg s r) ∧
    getReg v .ip = getReg s .ip + 5 ∧ SameMemory u v

/-! ### Reset, the host, the run loops -/

/-- What reset leaves (10_state.md R40, the spec's decision D15; 70_reset_and_hazards.md R280), and that nothing
of the old session survives. That the old state may be a Running one is the model's choice (log entry 21). -/
def Obligations.ResetValues : Prop := ∀ (p : Config.Params) (s : State),
  let t := hostReset p s
  getReg t .r0 = p.r0 ∧ getReg t .r1 = p.r1 ∧ getReg t .r2 = p.r2 ∧ getReg t .r3 = p.r3 ∧
  getReg t .acc = p.acc ∧ getReg t .ip = 0 ∧ getReg t .sp = p.spReset ∧ getReg t .fp = p.spReset ∧
  (∀ r, isModified t r = false) ∧ (∀ a, t.mem.readByte a = 0) ∧ t.memSize = p.memSize ∧
  t.run = .halted ∧ t.fault = none ∧ t.mode = .normal ∧
  (∀ n, Config.Params.ofMemSize n = ⟨n, 0, 0, 0, 0, 0, BitVec.ofNat 32 n⟩) ∧
  State.reset = hostReset Config.Params.standard s ∧ getReg State.reset .sp = 0x00010000 ∧
  getReg State.reset .fp = 0x00010000 ∧ getReg State.reset .acc = 0

/-- start changes IP with its modified bit, RUN, FAULT and MODE, and nothing else (10_state.md R41; clearing FAULT
is the spec's decision D23). That the state before may be a Running one is the model's choice (log entry 9). -/
def Obligations.StartChangesFourThings : Prop := ∀ (e : Word) (m : RunMode) (s : State),
  let t := start e m s
  getReg t .ip = e ∧ t.run = .running ∧ t.fault = none ∧ t.mode = m ∧ isModified t .ip = true ∧
  (∀ r, r ≠ .ip → getReg t r = getReg s r ∧ isModified t r = isModified s r) ∧
  t.mem = s.mem ∧ t.memSize = s.memSize ∧ t.prog = s.prog

/-- reset_modified clears the eight bits and changes nothing else; is_modified returns a bit (70_reset_and_hazards.md
R290). A register write sets the bit of that register and no other (10_state.md R28, R37). -/
def Obligations.ModifiedBitsFollowWrites : Prop := ∀ (s : State) (r : Reg) (v : Word),
  (∀ q, isModified (resetModified s) q = false ∧ getReg (resetModified s) q = getReg s q) ∧
  (resetModified s).mem = s.mem ∧ SameControl s (resetModified s) ∧
  (∀ t, t = setReg s r v ∨ t = incReg s r v ∨ t = decReg s r v →
    isModified t r = true ∧ ∀ q, q ≠ r → isModified t q = isModified s q ∧ getReg t q = getReg s q) ∧
  getReg (setReg s r v) r = v ∧
  (getReg (incReg s r v) r).toNat = ((getReg s r).toNat + v.toNat) % 2 ^ 32 ∧
  ((getReg (decReg s r v) r).toNat : Int) =
    (((getReg s r).toNat : Int) - (v.toNat : Int)) % 2 ^ 32

/-- The run loops. The two modes pass through the same states but for the modified bits (40_execution_cycle.md R142).
The DEBUG loop makes a list of steps, each from the state before with its modified bits cleared, ends where RUN is
Halted or where the host acknowledges no more (log entry 11), and emits one snapshot for each step and no other
(70_reset_and_hazards.md R292). The NORMAL loop makes as many steps and does nothing else, so the modified bits are
never cleared and accumulate (R292; 10_state.md R37). A run is start and then the loop of its mode (R142). A snapshot
holds the register values, the modified bits, all of working memory, RUN and FAULT (70_reset_and_hazards.md R291; the
last two are the spec's addition). -/
def Obligations.DebugLoopAgreesWithNormal : Prop :=
  (∀ (n : Nat) (s : State), ∃ (made : List State) (u : State),
    debugLoop n s = .next (made.getLast?.getD s, made.map snapshot) ∧ runLoop n s = .next u ∧
    (made.getLast?.getD s).forgetModified = u.forgetModified ∧
    (∀ (k : Nat) (v w : State), (s :: made)[k]? = some v → made[k]? = some w →
      step (resetModified v) = .next w) ∧
    (∀ (k : Nat) (v : State), made[k]? = some v → k + 1 < made.length → v.run = .running) ∧
    made.length ≤ n ∧ (made.length < n → ∃ v, made.getLast? = some v ∧ v.run = .halted) ∧
    Host.Core.run Sys2Proof.core made.length s = .next u ∧
    ∀ r, isModified s r = true → isModified u r = true) ∧
  (∀ (n : Nat) (e : Word) (s : State),
    run n e .normal s = runLoop n (start e .normal s) ∧
    ∃ t snaps, debugLoop n (start e .debug s) = .next (t, snaps) ∧ run n e .debug s = .next t) ∧
  ∀ v : State,
    (∀ r, (snapshot v).regs.get r = getReg v r ∧ (snapshot v).modified.get r = isModified v r) ∧
    (snapshot v).mem.length = v.memSize ∧
    (∀ a, a < v.memSize → (snapshot v).mem[a]? = some (v.mem.readByte a)) ∧
    (snapshot v).run = v.run ∧ (snapshot v).fault = v.fault

/-- What the host does between steps (70_reset_and_hazards.md R287, R288; 20_memory.md R52 to R57). It reads memory
in either run state (00_scope.md R15; R288 names only Halted: log entry 20). It loads, writes memory and sets a
register while Halted only. A read that fits gives the bytes, or their big-endian number; a write that fits stores the
low `8 * n` bits of its value, the most significant byte first, and nothing else. That load changes nothing but the
image (log entry 10), that the host's register set marks the register modified (log entry 12), and that what the spec
does not allow is a Refusal or a Fault of its own (log entry 8), are the model's. -/
def Obligations.HostReadsAndWrites : Prop :=
  ∀ (s : State) (a n v : Nat) (r : Reg) (w : Word) (bytes : List Byte),
  (a + n ≤ s.memSize →
    hostReadBytes s a n = .next ((List.range n).map fun k => s.mem.readByte (a + k)) ∧
    hostRead s a n = .next (beValue ((List.range n).map fun k => s.mem.readByte (a + k)))) ∧
  (s.memSize < a + n →
    hostReadBytes s a n = .fault (.hostAccessOutOfBounds a n) ∧
    hostRead s a n = .fault (.hostAccessOutOfBounds a n)) ∧
  (s.run = .running →
    load bytes s = .refused .hostWhileRunning ∧ hostWrite a n v s = .refused .hostWhileRunning ∧
    hostSetReg r w s = .refused .hostWhileRunning) ∧
  (s.run = .halted →
    (bytes.length ≤ 2 ^ 32 → load bytes s = .next { s with prog := bytes }) ∧
    (2 ^ 32 < bytes.length → load bytes s = .refused .imageTooLong) ∧
    hostSetReg r w s = .next (setReg s r w) ∧
    (a + n ≤ s.memSize → ∃ m : Memory, hostWrite a n v s = .next { s with mem := m } ∧
      (∀ k, k < n → m.readByte (a + k) = BitVec.ofNat 8 (v / 2 ^ (8 * (n - 1 - k)))) ∧
      ∀ b, b < a ∨ a + n ≤ b → m.readByte b = s.mem.readByte b) ∧
    (s.memSize < a + n → hostWrite a n v s = .fault (.hostAccessOutOfBounds a n)))

/-! ### The assembler (30_encoding.md R105 to R116; toolchain, 00_scope.md R5) -/

/-- Label resolution is transparent (30_encoding.md R113; 95_test_vectors.md T1): a program that assembles gives the
same bytes with every label target written as its address. The address of a label is the sum of the lengths of the
instructions that stand before its definition, the first instruction being at address 0 (R106, R112). That a target
resolves to this address modulo `2^32`, where it is above `2^32 - 1`, is the model's choice (log entry 13). -/
def Obligations.LabelResolutionIsTransparent : Prop := ∀ (items : List Item) (bytes : List Byte),
  assembleItems items = .ok bytes →
    assembleItems (items.map (preResolve (labelTable 0 items))) = .ok bytes ∧
    ∃ is, programOf items = .ok is ∧
      ∀ (before after : List Item) (name : List Char), items = before ++ .label name :: after →
        let address := ((is.take (before.countP isInstrItem)).map Instr.len).sum
        (name, address) ∈ labelTable 0 items ∧
        resolveTarget (labelTable 0 items) (.label name) = .ok (BitVec.ofNat 32 address)

/-- An assembled image decodes back to its program, instruction by instruction, each at the sum of the lengths before
it, and holds nothing else (30_encoding.md R112, R116). -/
def Obligations.AssembledImageDecodesBack : Prop :=
  ∀ (items : List Item) (bytes : List Byte), assembleItems items = .ok bytes →
    ∃ is, programOf items = .ok is ∧ bytes.length = (is.map Instr.len).sum ∧
      ∀ (k : Nat) (i : Instr), is[k]? = some i →
        decode bytes (((is.take k).map Instr.len).sum) = .ok i

/-- One bad line or one target without a definition, and no program comes out (30_encoding.md R113, R114;
95_test_vectors.md T8, T9). -/
def Obligations.BadLineMakesNoProgram : Prop :=
  (∀ (before after : List (List Char)) (line first : List Char) (more : List (List Char)) (e : AsmError)
    (bytes : List Byte), tokensOf line = first :: more → itemOf first more = .error e →
      (do
        let items ← itemsOf (before ++ line :: after)
        assembleItems items) ≠ .ok bytes) ∧
  (∀ (items : List Item) (name : List Char) (i : AsmInstr) (bytes : List Byte),
    .instr i ∈ items → .label name ∉ items →
    i = .jmp (.label name) ∨ i = .call (.label name) ∨ (∃ rel r, i = .cond rel r (.label name)) →
      assembleItems items ≠ .ok bytes)
end

