-- ==== Sys2Proof/Laws/Bytes.lean ====
section
/-! SUPPORT. Big-endian bytes and the numbers they stand for (20_memory.md R51). -/

namespace Sys2Proof

@[simp] theorem beBytes_length (n v : Nat) : (beBytes n v).length = n := by
  induction n with
  | zero => rfl
  | succ n ih => simp [beBytes, ih]

/-- Byte `k` of `n` is the one that stands `n - 1 - k` bytes up. -/
theorem beBytes_getElem? (n v k : Nat) (h : k < n) :
    (beBytes n v)[k]? = some (BitVec.ofNat 8 (v / 256 ^ (n - 1 - k))) := by
  induction n generalizing k with
  | zero => omega
  | succ n ih =>
    cases k with
    | zero => simp [beBytes]
    | succ k =>
      simp only [beBytes, List.getElem?_cons_succ]
      rw [ih k (by omega)]
      congr 4; omega

@[simp] theorem wordBytes_length (v : Word) : (wordBytes v).length = 4 := by simp [wordBytes]

theorem beValue_lt (bs : List Byte) : beValue bs < 256 ^ bs.length := by
  induction bs with
  | nil => simp [beValue]
  | cons b rest ih =>
    have hb : b.toNat + 1 ≤ 256 := b.isLt
    calc beValue (b :: rest) < b.toNat * 256 ^ rest.length + 256 ^ rest.length := by
          simp only [beValue]; omega
      _ = (b.toNat + 1) * 256 ^ rest.length := by ring
      _ ≤ 256 * 256 ^ rest.length := Nat.mul_le_mul_right _ hb
      _ = 256 ^ (b :: rest).length := by rw [List.length_cons, pow_succ]; ring

/-- The number that the low bytes of a number stand for. -/
theorem beValue_beBytes (n v : Nat) : beValue (beBytes n v) = v % 256 ^ n := by
  induction n with
  | zero => simp [beBytes, beValue, Nat.mod_one]
  | succ n ih =>
    simp only [beBytes, beValue, beBytes_length, ih, BitVec.toNat_ofNat]
    rw [show 256 ^ (n + 1) = 256 ^ n * 256 from pow_succ .., Nat.mod_mul,
      show 2 ^ 8 = 256 from rfl]
    ring

/-- A number's low bytes depend only on its residue. -/
theorem beBytes_mod (n v : Nat) : beBytes n (v % 256 ^ n) = beBytes n v := by
  suffices h : ∀ k, n ≤ k → beBytes n (v % 256 ^ k) = beBytes n v from h n le_rfl
  induction n with
  | zero => intro k _; rfl
  | succ n ih =>
    intro k hk
    simp only [beBytes, ih k (by omega)]
    congr 1
    apply BitVec.eq_of_toNat_eq
    simp only [BitVec.toNat_ofNat, show 2 ^ 8 = 256 from rfl]
    obtain ⟨j, rfl⟩ : ∃ j, k = n + 1 + j := ⟨k - (n + 1), by omega⟩
    rw [show 256 ^ (n + 1 + j) = 256 ^ n * 256 ^ (1 + j) by rw [← pow_add]; congr 1; omega,
      Nat.mod_mul_right_div_self, Nat.mod_mod_of_dvd _ (dvd_pow_self _ (by omega))]

/-- Bytes are the bytes of the number they stand for. -/
theorem beBytes_beValue (bs : List Byte) : beBytes bs.length (beValue bs) = bs := by
  induction bs with
  | nil => rfl
  | cons b rest ih =>
    have hlt := beValue_lt rest
    simp only [List.length_cons, beBytes, beValue]
    congr 1
    · rw [Nat.mul_comm, Nat.mul_add_div (by positivity), Nat.div_eq_of_lt hlt]
      simp
    · rw [← beBytes_mod, Nat.mul_comm, Nat.mul_add_mod, Nat.mod_eq_of_lt hlt, ih]

/-- A word's bytes give the word back. -/
@[simp] theorem ofNat_beValue_wordBytes (v : Word) : BitVec.ofNat 32 (beValue (wordBytes v)) = v := by
  apply BitVec.eq_of_toNat_eq
  have := v.isLt
  simp only [wordBytes, beValue_beBytes, BitVec.toNat_ofNat]
  omega

/-- Four bytes give back the bytes of the word they make. -/
theorem wordBytes_ofNat_beValue {bs : List Byte} (h : bs.length = 4) :
    wordBytes (BitVec.ofNat 32 (beValue bs)) = bs := by
  have hlt := beValue_lt bs
  rw [h] at hlt
  rw [wordBytes, BitVec.toNat_ofNat, Nat.mod_eq_of_lt (by omega)]
  have := beBytes_beValue bs
  rwa [h] at this

/-- A word's bytes, spelled out (20_memory.md R54). -/
theorem wordBytes_eq (v : Word) :
    wordBytes v = [v.extractLsb' 24 8, v.extractLsb' 16 8, v.extractLsb' 8 8, v.extractLsb' 0 8] := by
  simp only [wordBytes, beBytes, List.cons.injEq, and_true]
  refine ⟨?_, ?_, ?_, ?_⟩ <;>
  · apply BitVec.eq_of_toNat_eq
    simp [BitVec.extractLsb'_toNat, Nat.shiftRight_eq_div_pow]

end Sys2Proof
end

