-- ==== Sys2Proof/Laws/Memory.lean ====
section
/-! SUPPORT. Reading back what was written, and the canonical form of working memory. -/

namespace Sys2Proof.Machine

/-! ### Reading after writing -/

theorem Memory.readByte_erase_same (m : Memory) (a : Nat) : (m.erase a).readByte a = unlistedByte := by
  induction m with
  | nil => rfl
  | cons c rest ih =>
    obtain ⟨k, b⟩ := c
    by_cases hk : k = a
    · simpa [Memory.erase, hk] using ih
    · have : (Memory.erase ((k, b) :: rest) a) = (k, b) :: Memory.erase rest a := by
        simp [Memory.erase, hk]
      simp [this, Memory.readByte, hk, ih]

theorem Memory.readByte_erase_other (m : Memory) {a c : Nat} (h : c ≠ a) :
    (m.erase a).readByte c = m.readByte c := by
  induction m with
  | nil => rfl
  | cons e rest ih =>
    obtain ⟨k, b⟩ := e
    by_cases hk : k = a
    · have : (Memory.erase ((k, b) :: rest) a) = Memory.erase rest a := by simp [Memory.erase, hk]
      rw [this, ih]
      simp [Memory.readByte, show ¬ k = c by omega]
    · have : (Memory.erase ((k, b) :: rest) a) = (k, b) :: Memory.erase rest a := by
        simp [Memory.erase, hk]
      simp [this, Memory.readByte, ih]

theorem Memory.mem_erase {m : Memory} {a : Nat} {c : Host.Cell} : c ∈ m.erase a ↔ c ∈ m ∧ c.1 ≠ a := by
  simp [Memory.erase]

theorem Memory.readByte_insert_same {m : Memory} {a : Nat} (b : Byte) (h : ∀ c ∈ m, c.1 ≠ a) :
    (m.insert a b).readByte a = b := by
  induction m with
  | nil => simp [Memory.insert, Memory.readByte]
  | cons e rest ih =>
    obtain ⟨k, c⟩ := e
    have hk : k ≠ a := h (k, c) (by simp)
    have hr := ih fun x hx => h x (by simp [hx])
    simp only [Memory.insert]
    split <;> simp [Memory.readByte, hk, hr]

theorem Memory.readByte_insert_other (m : Memory) {a c : Nat} (b : Byte) (h : c ≠ a) :
    (m.insert a b).readByte c = m.readByte c := by
  induction m with
  | nil => simp [Memory.insert, Memory.readByte, Ne.symm h]
  | cons e rest ih =>
    obtain ⟨k, x⟩ := e
    simp only [Memory.insert]
    split <;> simp [Memory.readByte, Ne.symm h, ih]

@[simp] theorem Memory.readByte_writeByte_same (m : Memory) (a : Nat) (b : Byte) :
    (m.writeByte a b).readByte a = b := by
  simp only [Memory.writeByte]
  split
  · simp [Memory.readByte_erase_same, *]
  · exact Memory.readByte_insert_same b fun c hc => (Memory.mem_erase.1 hc).2

theorem Memory.readByte_writeByte_other (m : Memory) {a c : Nat} (b : Byte) (h : c ≠ a) :
    (m.writeByte a b).readByte c = m.readByte c := by
  simp only [Memory.writeByte]
  split
  · exact m.readByte_erase_other h
  · rw [Memory.readByte_insert_other _ b h, m.readByte_erase_other h]

@[simp] theorem Memory.readBytes_length (m : Memory) (a n : Nat) : (m.readBytes a n).length = n := by
  induction n generalizing a with
  | zero => rfl
  | succ n ih => simp [Memory.readBytes, ih]

theorem Memory.readBytes_getElem? (m : Memory) (a n k : Nat) (h : k < n) :
    (m.readBytes a n)[k]? = some (m.readByte (a + k)) := by
  induction n generalizing a k with
  | zero => omega
  | succ n ih =>
    cases k with
    | zero => simp [Memory.readBytes]
    | succ k =>
      simp only [Memory.readBytes, List.getElem?_cons_succ]
      rw [ih (a + 1) k (by omega)]
      congr 2; omega

theorem Memory.readBytes_congr {m m' : Memory} {a n : Nat}
    (h : ∀ c, a ≤ c → c < a + n → m.readByte c = m'.readByte c) :
    m.readBytes a n = m'.readBytes a n := by
  induction n generalizing a with
  | zero => rfl
  | succ n ih =>
    simp only [Memory.readBytes]
    rw [h a le_rfl (by omega), ih fun c h1 h2 => h c (by omega) (by omega)]

/-- A write leaves every byte outside it alone. -/
theorem Memory.readByte_writeBytes_outside (m : Memory) (a : Nat) (bs : List Byte) {c : Nat}
    (h : c < a ∨ a + bs.length ≤ c) : (m.writeBytes a bs).readByte c = m.readByte c := by
  induction bs generalizing m a with
  | nil => rfl
  | cons b rest ih =>
    simp only [List.length_cons] at h
    rw [Memory.writeBytes, ih _ _ (by omega), m.readByte_writeByte_other b (by omega)]

/-- A write is read back. -/
theorem Memory.readBytes_writeBytes_same (m : Memory) (a : Nat) (bs : List Byte) :
    (m.writeBytes a bs).readBytes a bs.length = bs := by
  induction bs generalizing m a with
  | nil => rfl
  | cons b rest ih =>
    simp only [List.length_cons, Memory.readBytes, Memory.writeBytes, ih]
    rw [Memory.readByte_writeBytes_outside _ _ _ (by omega), Memory.readByte_writeByte_same]

/-- A write elsewhere leaves a range of bytes alone. -/
theorem Memory.readBytes_writeBytes_outside (m : Memory) (a : Nat) (bs : List Byte) {c n : Nat}
    (h : c + n ≤ a ∨ a + bs.length ≤ c) : (m.writeBytes a bs).readBytes c n = m.readBytes c n :=
  Memory.readBytes_congr fun _ h1 h2 => m.readByte_writeBytes_outside a bs (by omega)

/-! ### The canonical form -/

theorem Memory.wf_iff (m : Memory) :
    m.wf = true ↔ m.Pairwise (fun c d => c.1 < d.1) ∧ ∀ c ∈ m, c.2 ≠ 0 := by
  induction m with
  | nil => simp [Memory.wf]
  | cons c rest ih =>
    cases rest with
    | nil => simp [Memory.wf]
    | cons d rest =>
      simp only [Memory.wf, Bool.and_eq_true, decide_eq_true_eq, ih, List.pairwise_cons,
        List.mem_cons, forall_eq_or_imp]
      constructor
      · rintro ⟨⟨h1, h2⟩, ⟨h3, h4⟩, h5, h6⟩
        exact ⟨⟨⟨h2, fun x hx => lt_trans h2 (h3 x hx)⟩, h3, h4⟩, h1, h5, h6⟩
      · rintro ⟨⟨⟨h1, _⟩, h3, h4⟩, h5, h6, h7⟩
        exact ⟨⟨h5, h1⟩, ⟨h3, h4⟩, h6, h7⟩

theorem Memory.mem_insert {m : Memory} {a : Nat} {b : Byte} {c : Host.Cell} :
    c ∈ m.insert a b ↔ c = (a, b) ∨ c ∈ m := by
  induction m with
  | nil => simp [Memory.insert]
  | cons e rest ih =>
    simp only [Memory.insert]
    split
    · simp
    · simp [ih]; tauto

theorem Memory.wf_erase {m : Memory} (a : Nat) (h : m.wf = true) : (m.erase a).wf = true := by
  rw [Memory.wf_iff] at *
  exact ⟨h.1.sublist List.filter_sublist, fun c hc => h.2 c (Memory.mem_erase.1 hc).1⟩

theorem Memory.pairwise_insert {m : Memory} {a : Nat} (b : Byte)
    (h : m.Pairwise (fun c d => c.1 < d.1)) (ha : ∀ c ∈ m, c.1 ≠ a) :
    (m.insert a b).Pairwise (fun c d => c.1 < d.1) := by
  induction m with
  | nil => simp [Memory.insert]
  | cons e rest ih =>
    obtain ⟨k, x⟩ := e
    rw [List.pairwise_cons] at h
    simp only [Memory.insert]
    split
    · rename_i hlt
      refine List.pairwise_cons.2 ⟨?_, List.pairwise_cons.2 h⟩
      intro c hc
      rcases List.mem_cons.1 hc with rfl | hc
      · exact hlt
      · exact lt_trans hlt (h.1 c hc)
    · rename_i hge
      have hk : k ≠ a := ha (k, x) (by simp)
      refine List.pairwise_cons.2 ⟨?_, ih h.2 fun c hc => ha c (by simp [hc])⟩
      intro c hc
      rcases Memory.mem_insert.1 hc with rfl | hc
      · show k < a; omega
      · exact h.1 c hc

/-- A byte written keeps the canonical form. -/
theorem Memory.wf_writeByte {m : Memory} (a : Nat) (b : Byte) (h : m.wf = true) :
    (m.writeByte a b).wf = true := by
  simp only [Memory.writeByte]
  split
  · exact Memory.wf_erase a h
  · rename_i hb
    have he := (Memory.wf_iff _).1 (Memory.wf_erase a h)
    refine (Memory.wf_iff _).2
      ⟨Memory.pairwise_insert b he.1 fun c hc => (Memory.mem_erase.1 hc).2, fun c hc => ?_⟩
    rcases Memory.mem_insert.1 hc with rfl | hc
    · exact hb
    · exact he.2 c hc

/-- Bytes written keep the canonical form. -/
theorem Memory.wf_writeBytes {m : Memory} (a : Nat) (bs : List Byte) (h : m.wf = true) :
    (m.writeBytes a bs).wf = true := by
  induction bs generalizing m a with
  | nil => exact h
  | cons b rest ih => exact ih (a + 1) (Memory.wf_writeByte a b h)

/-- A byte written lists no address but its own. -/
theorem Memory.mem_writeByte {m : Memory} {a : Nat} {b : Byte} {c : Host.Cell}
    (h : c ∈ m.writeByte a b) : c.1 = a ∨ c ∈ m := by
  simp only [Memory.writeByte] at h
  split at h
  · exact .inr (Memory.mem_erase.1 h).1
  · rcases Memory.mem_insert.1 h with rfl | h
    · exact .inl rfl
    · exact .inr (Memory.mem_erase.1 h).1

/-- Bytes written list no address outside them. -/
theorem Memory.mem_writeBytes {m : Memory} {a : Nat} {bs : List Byte} {c : Host.Cell}
    (h : c ∈ m.writeBytes a bs) : (a ≤ c.1 ∧ c.1 < a + bs.length) ∨ c ∈ m := by
  induction bs generalizing m a with
  | nil => exact .inr h
  | cons b rest ih =>
    simp only [List.length_cons]
    rcases ih h with h | h
    · left; omega
    · rcases Memory.mem_writeByte h with h | h
      · left; omega
      · exact .inr h

theorem Memory.readByte_eq_zero_of_lt {m : Memory} {a : Nat} (h : ∀ c ∈ m, a < c.1) :
    m.readByte a = unlistedByte := by
  induction m with
  | nil => rfl
  | cons e rest ih =>
    obtain ⟨k, b⟩ := e
    have hk : a < k := h (k, b) (by simp)
    simp only [Memory.readByte, show ¬ k = a by omega, if_false]
    exact ih fun c hc => h c (by simp [hc])

/-- Memories in canonical form that read the same everywhere are the same data. -/
theorem Memory.eq_of_readByte_eq {m n : Memory} (hm : m.wf = true) (hn : n.wf = true)
    (h : ∀ a, m.readByte a = n.readByte a) : m = n := by
  rw [Memory.wf_iff] at hm hn
  have key : ∀ (k : Nat) (b : Byte) (rest : Memory), b ≠ 0 → (∀ c ∈ rest, k < c.1) →
      Memory.readByte ((k, b) :: rest) k ≠ unlistedByte := by
    intro k b rest hb _
    simpa [Memory.readByte, unlistedByte] using hb
  induction m generalizing n with
  | nil =>
    cases n with
    | nil => rfl
    | cons e rest =>
      obtain ⟨k, b⟩ := e
      exact absurd (h k).symm
        (key k b rest (hn.2 (k, b) (by simp)) (List.pairwise_cons.1 hn.1).1)
  | cons e rest ih =>
    obtain ⟨k, b⟩ := e
    have hk := List.pairwise_cons.1 hm.1
    have hb : b ≠ 0 := hm.2 (k, b) (by simp)
    cases n with
    | nil => exact absurd (h k) (key k b rest hb hk.1)
    | cons e' rest' =>
      obtain ⟨k', b'⟩ := e'
      have hk' := List.pairwise_cons.1 hn.1
      have hb' : b' ≠ 0 := hn.2 (k', b') (by simp)
      obtain hlt | rfl | hgt := lt_trichotomy k k'
      · have := h k
        rw [Memory.readByte_eq_zero_of_lt (m := (k', b') :: rest')] at this
        · exact absurd this (key k b rest hb hk.1)
        · intro c hc
          rcases List.mem_cons.1 hc with rfl | hc
          · exact hlt
          · exact lt_trans hlt (hk'.1 c hc)
      · have hbb : b = b' := by simpa [Memory.readByte] using h k
        subst hbb
        have : rest = rest' := by
          refine ih ⟨hk.2, fun c hc => hm.2 c (by simp [hc])⟩
            ⟨hk'.2, fun c hc => hn.2 c (by simp [hc])⟩ fun a => ?_
          by_cases ha : k = a
          · subst ha
            rw [Memory.readByte_eq_zero_of_lt hk.1, Memory.readByte_eq_zero_of_lt hk'.1]
          · simpa [Memory.readByte, ha] using h a
        rw [this]
      · have := h k'
        rw [Memory.readByte_eq_zero_of_lt (m := (k, b) :: rest)] at this
        · exact absurd this.symm (key k' b' rest' hb' hk'.1)
        · intro c hc
          rcases List.mem_cons.1 hc with rfl | hc
          · exact hgt
          · exact lt_trans hgt (hk.1 c hc)

/-- The reset memory has the canonical form. -/
theorem reset_mem_wf (p : Config.Params) : (State.resetWith p).mem.wf = true := rfl

end Sys2Proof.Machine
end

