-- ==== Sys2Proof/Laws/State.lean ====
section
/-! SUPPORT. One lemma per field per update of the state, so that no later proof unfolds a record. -/

namespace Sys2Proof.Machine

variable {α : Type}

@[simp] theorem RegFile.get_set_same (f : RegFile α) (r : Reg) (v : α) : (f.set r v).get r = v := by
  cases r <;> rfl

theorem RegFile.get_set_other (f : RegFile α) {r q : Reg} (v : α) (h : q ≠ r) :
    (f.set r v).get q = f.get q := by
  cases r <;> cases q <;> first | rfl | exact absurd rfl h

theorem RegFile.get_set (f : RegFile α) (r q : Reg) (v : α) :
    (f.set r v).get q = if q = r then v else f.get q := by
  split
  · subst_vars; simp
  · exact f.get_set_other v ‹_›

theorem RegFile.ext_get {f g : RegFile α} (h : ∀ r, f.get r = g.get r) : f = g := by
  obtain ⟨⟩ := f
  obtain ⟨⟩ := g
  have h0 := h .r0; have h1 := h .r1; have h2 := h .r2; have h3 := h .r3
  have h4 := h .acc; have h5 := h .ip; have h6 := h .sp; have h7 := h .fp
  simp only [RegFile.get] at *
  subst_vars; rfl

@[simp] theorem RegFile.set_set (f : RegFile α) (r : Reg) (v w : α) : (f.set r v).set r w = f.set r w := by
  cases r <;> rfl

/-! ### setReg -/

@[simp] theorem getReg_setReg_same (s : State) (r : Reg) (v : Word) : getReg (setReg s r v) r = v := by
  simp [getReg, setReg]

theorem getReg_setReg_other (s : State) {r q : Reg} (v : Word) (h : q ≠ r) :
    getReg (setReg s r v) q = getReg s q := by
  simp [getReg, setReg, RegFile.get_set_other _ _ h]

theorem getReg_setReg (s : State) (r q : Reg) (v : Word) :
    getReg (setReg s r v) q = if q = r then v else getReg s q := by
  simp [getReg, setReg, RegFile.get_set]

theorem isModified_setReg (s : State) (r q : Reg) (v : Word) :
    isModified (setReg s r v) q = if q = r then true else isModified s q := by
  simp [isModified, setReg, RegFile.get_set]

@[simp] theorem setReg_mem (s : State) (r : Reg) (v : Word) : (setReg s r v).mem = s.mem := rfl
@[simp] theorem setReg_memSize (s : State) (r : Reg) (v : Word) :
    (setReg s r v).memSize = s.memSize := rfl
@[simp] theorem setReg_prog (s : State) (r : Reg) (v : Word) : (setReg s r v).prog = s.prog := rfl
@[simp] theorem setReg_run (s : State) (r : Reg) (v : Word) : (setReg s r v).run = s.run := rfl
@[simp] theorem setReg_fault (s : State) (r : Reg) (v : Word) : (setReg s r v).fault = s.fault := rfl
@[simp] theorem setReg_mode (s : State) (r : Reg) (v : Word) : (setReg s r v).mode = s.mode := rfl

/-! ### advance -/

theorem getReg_advance (op : Opcode) (s : State) (q : Reg) :
    getReg (advance op s) q = if q = .ip then getReg s .ip + BitVec.ofNat 32 op.len else getReg s q := by
  simp [advance, incReg, getReg_setReg]

theorem isModified_advance (op : Opcode) (s : State) (q : Reg) :
    isModified (advance op s) q = if q = .ip then true else isModified s q := by
  simp [advance, incReg, isModified_setReg]

@[simp] theorem advance_mem (op : Opcode) (s : State) : (advance op s).mem = s.mem := rfl
@[simp] theorem advance_memSize (op : Opcode) (s : State) : (advance op s).memSize = s.memSize := rfl
@[simp] theorem advance_prog (op : Opcode) (s : State) : (advance op s).prog = s.prog := rfl
@[simp] theorem advance_run (op : Opcode) (s : State) : (advance op s).run = s.run := rfl
@[simp] theorem advance_fault (op : Opcode) (s : State) : (advance op s).fault = s.fault := rfl
@[simp] theorem advance_mode (op : Opcode) (s : State) : (advance op s).mode = s.mode := rfl

/-! ### raiseFault -/

@[simp] theorem raiseFault_regs (s : State) (f : FaultCause) : (raiseFault s f).regs = s.regs := rfl
@[simp] theorem raiseFault_modified (s : State) (f : FaultCause) :
    (raiseFault s f).modified = s.modified := rfl
@[simp] theorem raiseFault_mem (s : State) (f : FaultCause) : (raiseFault s f).mem = s.mem := rfl
@[simp] theorem raiseFault_memSize (s : State) (f : FaultCause) :
    (raiseFault s f).memSize = s.memSize := rfl
@[simp] theorem raiseFault_prog (s : State) (f : FaultCause) : (raiseFault s f).prog = s.prog := rfl
@[simp] theorem raiseFault_run (s : State) (f : FaultCause) : (raiseFault s f).run = .halted := rfl
@[simp] theorem raiseFault_fault (s : State) (f : FaultCause) : (raiseFault s f).fault = some f := rfl
@[simp] theorem raiseFault_mode (s : State) (f : FaultCause) : (raiseFault s f).mode = s.mode := rfl
@[simp] theorem getReg_raiseFault (s : State) (f : FaultCause) (r : Reg) :
    getReg (raiseFault s f) r = getReg s r := rfl
@[simp] theorem isModified_raiseFault (s : State) (f : FaultCause) (r : Reg) :
    isModified (raiseFault s f) r = isModified s r := rfl

/-! ### A state given field by field -/

/-- Reading a register of any record reads its register file, whatever its other fields are. -/
@[simp] theorem getReg_mk (f : RegFile Word) (g : RegFile Bool) (m : Memory) (n : Nat) (p : List Byte)
    (u : RunState) (c : Option FaultCause) (d : RunMode) (r : Reg) :
    getReg { regs := f, modified := g, mem := m, memSize := n, prog := p, run := u, fault := c, mode := d } r =
      f.get r := rfl
@[simp] theorem isModified_mk (f : RegFile Word) (g : RegFile Bool) (m : Memory) (n : Nat)
    (p : List Byte) (u : RunState) (c : Option FaultCause) (d : RunMode) (r : Reg) :
    isModified { regs := f, modified := g, mem := m, memSize := n, prog := p, run := u, fault := c, mode := d }
      r = g.get r := rfl
@[simp] theorem regs_get (s : State) (r : Reg) : s.regs.get r = getReg s r := rfl
@[simp] theorem modified_get (s : State) (r : Reg) : s.modified.get r = isModified s r := rfl

/-! ### start and reset_modified -/

@[simp] theorem start_mem (e : Word) (m : RunMode) (s : State) : (start e m s).mem = s.mem := rfl
@[simp] theorem start_memSize (e : Word) (m : RunMode) (s : State) :
    (start e m s).memSize = s.memSize := rfl
@[simp] theorem start_prog (e : Word) (m : RunMode) (s : State) : (start e m s).prog = s.prog := rfl
@[simp] theorem start_run (e : Word) (m : RunMode) (s : State) : (start e m s).run = .running := rfl
@[simp] theorem start_fault (e : Word) (m : RunMode) (s : State) : (start e m s).fault = none := rfl
@[simp] theorem start_mode (e : Word) (m : RunMode) (s : State) : (start e m s).mode = m := rfl

@[simp] theorem resetModified_regs (s : State) : (resetModified s).regs = s.regs := rfl
@[simp] theorem resetModified_mem (s : State) : (resetModified s).mem = s.mem := rfl
@[simp] theorem resetModified_memSize (s : State) : (resetModified s).memSize = s.memSize := rfl
@[simp] theorem resetModified_prog (s : State) : (resetModified s).prog = s.prog := rfl
@[simp] theorem resetModified_run (s : State) : (resetModified s).run = s.run := rfl
@[simp] theorem resetModified_fault (s : State) : (resetModified s).fault = s.fault := rfl
@[simp] theorem resetModified_mode (s : State) : (resetModified s).mode = s.mode := rfl
@[simp] theorem getReg_resetModified (s : State) (r : Reg) :
    getReg (resetModified s) r = getReg s r := rfl

end Sys2Proof.Machine
end

