-- ==== Sys2Proof/Laws/Ops.lean ====
section
/-! SUPPORT. One lemma for each shared operation that says all it can do. -/

namespace Sys2Proof

/-! ### Except, taken apart -/

@[simp] theorem except_ok_bind {ε α β : Type} (a : α) (f : α → Except ε β) :
    ((Except.ok a : Except ε α) >>= f) = f a := rfl

@[simp] theorem except_error_bind {ε α β : Type} (e : ε) (f : α → Except ε β) :
    ((Except.error e : Except ε α) >>= f) = .error e := rfl

theorem except_bind_eq_ok {ε α β : Type} {x : Except ε α} {f : α → Except ε β} {b : β} :
    (x >>= f) = .ok b ↔ ∃ a, x = .ok a ∧ f a = .ok b := by
  cases x <;> simp

theorem except_bind_eq_error {ε α β : Type} {x : Except ε α} {f : α → Except ε β} {e : ε} :
    (x >>= f) = .error e ↔ x = .error e ∨ ∃ a, x = .ok a ∧ f a = .error e := by
  cases x <;> simp

namespace Machine

/-! ### Memory accesses (20_memory.md R53, R54, R57) -/

theorem memRead_eq (s : State) (a n : Nat) :
    memRead s a n = if a + n ≤ s.memSize then .ok (beValue (s.mem.readBytes a n))
      else .error (.memOutOfBounds a n) := by
  simp only [memRead, inBounds, decide_eq_true_eq]

theorem memWrite_eq (s : State) (a n v : Nat) :
    memWrite s a n v =
      if a + n ≤ s.memSize then .ok { s with mem := s.mem.writeBytes a (beBytes n v) }
      else .error (.memOutOfBounds a n) := by
  simp only [memWrite, inBounds, decide_eq_true_eq]

theorem memRead32_eq (s : State) (a : Nat) :
    memRead32 s a = if a + 4 ≤ s.memSize then .ok (wordAt s a) else .error (.memOutOfBounds a 4) := by
  simp only [memRead32, memRead, inBounds, decide_eq_true_eq]
  split <;> rfl

theorem memWrite32_eq (s : State) (a : Nat) (v : Word) :
    memWrite32 s a v =
      if a + 4 ≤ s.memSize then .ok { s with mem := s.mem.writeBytes a (wordBytes v) }
      else .error (.memOutOfBounds a 4) := by
  simp only [memWrite32, memWrite, inBounds, decide_eq_true_eq]
  split <;> rfl

/-- A word reads as its own four bytes make it; a state's word depends on its memory only. -/
theorem wordAt_writeBytes_same (s : State) (m : Memory) (a : Nat) (v : Word) :
    wordAt { s with mem := m.writeBytes a (wordBytes v) } a = v := by
  have h := m.readBytes_writeBytes_same a (wordBytes v)
  rw [wordBytes_length] at h
  simp [wordAt, h]

theorem wordAt_congr {s t : State} {a : Nat}
    (h : ∀ c, a ≤ c → c < a + 4 → t.mem.readByte c = s.mem.readByte c) : wordAt t a = wordAt s a := by
  simp only [wordAt]
  rw [Memory.readBytes_congr h]

@[simp] theorem wordAt_setReg (s : State) (r : Reg) (v : Word) (a : Nat) :
    wordAt (setReg s r v) a = wordAt s a := rfl

@[simp] theorem wordAt_advance (op : Opcode) (s : State) (a : Nat) :
    wordAt (advance op s) a = wordAt s a := rfl

/-! ### The stack (20_memory.md R62, R63) -/

theorem push_eq (s : State) (v : Word) :
    push s v =
      if (getReg s .sp - 4).toNat + 4 ≤ s.memSize then
        .ok (setReg { s with mem := s.mem.writeBytes (getReg s .sp - 4).toNat (wordBytes v) } .sp
          (getReg s .sp - 4))
      else .error (.memOutOfBounds (getReg s .sp - 4).toNat 4) := by
  simp only [push, memWrite32_eq]
  split <;> rfl

theorem pop_eq (s : State) :
    pop s =
      if (getReg s .sp).toNat + 4 ≤ s.memSize then
        .ok (wordAt s (getReg s .sp).toNat, setReg s .sp (getReg s .sp + 4))
      else .error (.memOutOfBounds (getReg s .sp).toNat 4) := by
  simp only [pop, memRead32_eq]
  split <;> rfl

theorem popInto_eq (s : State) (r : Reg) :
    popInto s r =
      if (getReg s .sp).toNat + 4 ≤ s.memSize then
        .ok (setReg (setReg s .sp (getReg s .sp + 4)) r (wordAt s (getReg s .sp).toNat))
      else .error (.memOutOfBounds (getReg s .sp).toNat 4) := by
  simp only [popInto, pop_eq]
  split <;> rfl

/-! ### execute (40_execution_cycle.md R135, R136) -/

theorem execute_of_ok {op : Opcode} {eff : State → Except FaultCause State} {s t : State}
    (h : eff (advance op s) = .ok t) : execute op eff s = .next t := by
  simp [execute, h]

theorem execute_of_error {op : Opcode} {eff : State → Except FaultCause State} {s : State}
    {f : FaultCause} (h : eff (advance op s) = .error f) :
    execute op eff s = .next (raiseFault s f) := by
  simp [execute, h]

/-- All an instruction can do: complete its effect, or take a fault in the state it began in. -/
theorem execute_cases {op : Opcode} {eff : State → Except FaultCause State} {s t : State}
    (h : execute op eff s = .next t) :
    eff (advance op s) = .ok t ∨ ∃ f, eff (advance op s) = .error f ∧ t = raiseFault s f := by
  simp only [execute] at h
  split at h
  · cases h; exact .inl ‹_›
  · cases h; exact .inr ⟨_, ‹_›, rfl⟩

/-- An instruction always answers a next state. -/
theorem execute_next (op : Opcode) (eff : State → Except FaultCause State) (s : State) :
    ∃ t, execute op eff s = .next t := by
  simp only [execute]
  split <;> exact ⟨_, rfl⟩

/-- The effect of an instruction, apart from the advance that comes before it. -/
def effectOf : Instr → State → Except FaultCause State
  | .halt => fun t => .ok { t with run := .halted }
  | .pushLit lit => fun t => push t lit
  | .pushReg src => fun t => push t (getReg t src)
  | .popReg dst => fun t => popInto t dst
  | .movLitReg lit dst => fun t => .ok (setReg t dst lit)
  | .movRegReg src dst => fun t => .ok (setReg t dst (getReg t src))
  | .movMemReg mem dst => fun t => do
    let v ← memRead32 t mem.toNat
    .ok (setReg t dst v)
  | .movLitMem lit mem => fun t => memWrite32 t mem.toNat lit
  | .movRegMem src mem => fun t => memWrite32 t mem.toNat (getReg t src)
  | .movMemMem srcmem dstmem => fun t => do
    let v ← memRead32 t srcmem.toNat
    memWrite32 t dstmem.toNat v
  | .addLitReg lit dst => fun t => .ok (setReg t dst (getReg t dst + lit))
  | .subLitReg lit dst => fun t => .ok (setReg t dst (getReg t dst - lit))
  | .addRegReg src dst => fun t => .ok (setReg t dst (getReg t dst + getReg t src))
  | .subRegReg src dst => fun t => .ok (setReg t dst (getReg t dst - getReg t src))
  | .addRegRegReg srcA srcB dst => fun t => .ok (setReg t dst (getReg t srcA + getReg t srcB))
  | .incReg reg => fun t => .ok (setReg t reg (getReg t reg + 1))
  | .decReg reg => fun t => .ok (setReg t reg (getReg t reg - 1))
  | .incMem mem => fun t => do
    let v ← memRead32 t mem.toNat
    memWrite32 t mem.toNat (v + 1)
  | .decMem mem => fun t => do
    let v ← memRead32 t mem.toNat
    memWrite32 t mem.toNat (v - 1)
  | .jmp target => fun t => .ok (setReg t .ip target)
  | .jmpNe reg target => condJump .ne reg target
  | .jmpEq reg target => condJump .eq reg target
  | .jmpGt reg target => condJump .gt reg target
  | .jmpLt reg target => condJump .lt reg target
  | .jmpGe reg target => condJump .ge reg target
  | .jmpLe reg target => condJump .le reg target
  | .call target => callEffect target
  | .ret => returnEffect

/-- Every instruction is the common part around its effect. -/
theorem exec_eq (i : Instr) (s : State) : exec i s = execute i.opcode (effectOf i) s := by
  cases i <;> rfl

end Machine

end Sys2Proof
end

