-- ==== Sys2Proof/Laws/Assembler.lean ====
section
/-! SUPPORT. The assembler's passes over a program in two parts, and that resolving a label keeps an instruction's
length (30_encoding.md R106, R112, R113). -/

namespace Sys2Proof.Machine

/-- Resolving a label leaves the opcode, so the length, of an instruction line. -/
theorem resolveInstr_opcode {table : List (List Char × Nat)} {a : AsmInstr} {i : Instr}
    (h : resolveInstr table a = .ok i) : i.opcode = a.opcode := by
  cases a with
  | plain j => cases h; rfl
  | jmp t => simp only [resolveInstr, except_bind_eq_ok] at h; obtain ⟨_, -, h⟩ := h; cases h; rfl
  | call t => simp only [resolveInstr, except_bind_eq_ok] at h; obtain ⟨_, -, h⟩ := h; cases h; rfl
  | cond rel r t =>
    simp only [resolveInstr, except_bind_eq_ok] at h
    obtain ⟨_, -, h⟩ := h
    cases h
    cases rel <;> rfl

/-- A label's entry is in the table at the address where its line begins. -/
theorem mem_labelTable_append {table : List (List Char × Nat)} {n : Nat} {before after : List Item}
    {name : List Char} {is : List Instr}
    (h : resolveItems table (before ++ .label name :: after) = .ok is) :
    (name, n + ((is.take (before.countP isInstrItem)).map Instr.len).sum) ∈
      labelTable n (before ++ .label name :: after) := by
  induction before generalizing n is with
  | nil => simp [labelTable]
  | cons x xs ih =>
    cases x with
    | label other =>
      simp only [List.cons_append, labelTable, List.countP_cons, isInstrItem, Bool.false_eq_true, if_false,
        Nat.add_zero]
      exact List.mem_cons_of_mem _ (ih h)
    | instr a =>
      simp only [List.cons_append, resolveItems, except_bind_eq_ok] at h
      obtain ⟨i, hi, js, hjs, h⟩ := h
      cases h
      simp only [List.cons_append, labelTable, List.countP_cons, isInstrItem, if_true, List.take_succ_cons,
        List.map_cons, List.sum_cons, ← Nat.add_assoc, Instr.len, resolveInstr_opcode hi]
      exact ih hjs

/-- Where no label is defined twice, a target resolves to its entry's address. -/
theorem resolveTarget_of_mem {table : List (List Char × Nat)} {name : List Char} {a : Nat}
    (hn : (table.map Prod.fst).Nodup) (h : (name, a) ∈ table) :
    resolveTarget table (.label name) = .ok (BitVec.ofNat 32 a) := by
  simp only [resolveTarget]
  induction table with
  | nil => cases h
  | cons e rest ih =>
    simp only [List.map_cons, List.nodup_cons] at hn
    by_cases he : e.1 = name
    · rcases List.mem_cons.1 h with rfl | h
      · simp
      · exact absurd (List.mem_map_of_mem (f := Prod.fst) h) (he ▸ hn.1)
    · rw [List.find?_cons_of_neg (by simpa using he)]
      refine ih hn.2 ?_
      rcases List.mem_cons.1 h with rfl | h
      · exact absurd rfl he
      · exact h

end Sys2Proof.Machine
end

