-- ==== Sys2Proof/Laws/Decode.lean ====
section
/-! SUPPORT. The maps both ways, and what each fetch of the decoder answers. -/

namespace Sys2Proof

/-! ### The maps (30_encoding.md R84; 10_state.md R21) -/

@[simp] theorem opcodeOfByte_opcodeByte (op : Opcode) : opcodeOfByte (opcodeByte op) = some op := by
  cases op <;> rfl

@[simp] theorem regOfByte_regByte (r : Reg) : regOfByte (regByte r) = some r := by
  cases r <;> rfl

theorem opcodeOfByte_eq_some {b : Byte} {op : Opcode} :
    opcodeOfByte b = some op ↔ b = opcodeByte op := by
  constructor
  · intro h
    have := List.find?_some h
    exact (of_decide_eq_true this).symm
  · rintro rfl; simp

theorem regOfByte_eq_some {b : Byte} {r : Reg} : regOfByte b = some r ↔ b = regByte r := by
  constructor
  · intro h
    have := List.find?_some h
    exact (of_decide_eq_true this).symm
  · rintro rfl; simp

theorem regByte_le (r : Reg) : (regByte r).toNat ≤ 7 := by cases r <;> decide

theorem opcodeByte_le (op : Opcode) : (opcodeByte op).toNat ≤ 27 := by cases op <;> decide

theorem regOfByte_eq_none {b : Byte} : regOfByte b = none ↔ 7 < b.toNat := by
  revert b; decide

theorem opcodeOfByte_eq_none {b : Byte} : opcodeOfByte b = none ↔ 27 < b.toNat := by
  revert b; decide

/-! ### Fetches (20_memory.md R57, R58) -/

theorem getElem?_eq_of_take_drop {prog : List Byte} {a : Nat} {b : Byte} (h : prog[a]? = some b) :
    (prog.drop a).take 1 = [b] := by
  obtain ⟨hlt, hb⟩ := List.getElem?_eq_some_iff.1 h
  rw [List.drop_eq_getElem_cons hlt, hb]
  rfl

theorem fetchByte_of_some {prog : List Byte} {pc0 k : Nat} {b : Byte}
    (h : prog[pc0 + k]? = some b) : fetchByte prog pc0 k = .ok b := by
  obtain ⟨hlt, -⟩ := List.getElem?_eq_some_iff.1 h
  simp [fetchByte, progRead, getElem?_eq_of_take_drop h, beValue,
    show pc0 + k + 1 ≤ prog.length from hlt]

theorem fetchByte_of_le {prog : List Byte} {pc0 k : Nat} (h : prog.length ≤ pc0 + k) :
    fetchByte prog pc0 k = .error (.progOutOfBounds (pc0 + k) 1) := by
  simp [fetchByte, progRead, show ¬ pc0 + k + 1 ≤ prog.length by omega]

theorem fetchByte_eq_ok {prog : List Byte} {pc0 k : Nat} {b : Byte} :
    fetchByte prog pc0 k = .ok b ↔ prog[pc0 + k]? = some b := by
  constructor
  · intro h
    rcases hq : prog[pc0 + k]? with _ | c
    · rw [fetchByte_of_le (List.getElem?_eq_none_iff.1 hq)] at h; cases h
    · rw [fetchByte_of_some hq] at h; cases h; rfl
  · exact fetchByte_of_some

theorem fetchByte_eq_error {prog : List Byte} {pc0 k : Nat} {f : FaultCause} :
    fetchByte prog pc0 k = .error f ↔
      prog.length ≤ pc0 + k ∧ f = .progOutOfBounds (pc0 + k) 1 := by
  rcases hq : prog[pc0 + k]? with _ | c
  · have hle := List.getElem?_eq_none_iff.1 hq
    rw [fetchByte_of_le hle]
    constructor
    · intro h; cases h; exact ⟨hle, rfl⟩
    · rintro ⟨-, rfl⟩; rfl
  · rw [fetchByte_of_some hq]
    obtain ⟨hlt, -⟩ := List.getElem?_eq_some_iff.1 hq
    constructor
    · intro h; cases h
    · rintro ⟨h, -⟩; omega

theorem fetchWord_eq (prog : List Byte) (pc0 k : Nat) :
    fetchWord prog pc0 k =
      if pc0 + k + 4 ≤ prog.length then
        .ok (BitVec.ofNat 32 (beValue ((prog.drop (pc0 + k)).take 4)))
      else .error (.progOutOfBounds (pc0 + k) 4) := by
  simp only [fetchWord, progRead]
  split <;> rfl

theorem take_drop_length {prog : List Byte} {a n : Nat} (h : a + n ≤ prog.length) :
    ((prog.drop a).take n).length = n := by
  simp; omega

/-- A fetched word's bytes are the bytes at the address. -/
theorem fetchWord_eq_ok {prog : List Byte} {pc0 k : Nat} {v : Word} :
    fetchWord prog pc0 k = .ok v ↔
      Machine.BytesAt prog (pc0 + k) (wordBytes v) := by
  rw [fetchWord_eq]
  simp only [Machine.BytesAt, wordBytes_length]
  constructor
  · intro h
    split at h
    · cases h
      exact (wordBytes_ofNat_beValue (take_drop_length ‹_›)).symm
    · cases h
  · intro h
    have hl := congrArg List.length h
    rw [wordBytes_length, List.length_take, List.length_drop] at hl
    rw [if_pos (by omega), h, ofNat_beValue_wordBytes]

theorem fetchWord_eq_error {prog : List Byte} {pc0 k : Nat} {f : FaultCause} :
    fetchWord prog pc0 k = .error f ↔
      prog.length < pc0 + k + 4 ∧ f = .progOutOfBounds (pc0 + k) 4 := by
  rw [fetchWord_eq]
  split
  · constructor
    · intro h; cases h
    · rintro ⟨h, -⟩; omega
  · constructor
    · intro h; cases h; exact ⟨by omega, rfl⟩
    · rintro ⟨-, rfl⟩; rfl

/-! ### Register checks (30_encoding.md R90) -/

@[simp] theorem checkReg_regByte (pc0 k : Nat) (r : Reg) : checkReg pc0 k (regByte r) = .ok r := by
  simp [checkReg]

theorem checkReg_eq_ok {pc0 k : Nat} {b : Byte} {r : Reg} :
    checkReg pc0 k b = .ok r ↔ b = regByte r := by
  rw [← regOfByte_eq_some, checkReg]
  split <;> simp_all

theorem checkReg_eq_error {pc0 k : Nat} {b : Byte} {f : FaultCause} :
    checkReg pc0 k b = .error f ↔ 7 < b.toNat ∧ f = .regOutOfBounds (pc0 + k) b := by
  rw [← regOfByte_eq_none, checkReg]
  rcases hb : regOfByte b with _ | r <;> simp [eq_comm]

/-! ### decode (30_encoding.md R93) -/

/-- Where a known opcode stands, decoding is decoding its operands. -/
theorem decode_of_opcode {prog : List Byte} {pc0 : Nat} {op : Opcode}
    (h : prog[pc0]? = some (opcodeByte op)) : decode prog pc0 = decodeOperands op prog pc0 := by
  have h0 : fetchByte prog pc0 0 = .ok (opcodeByte op) := fetchByte_of_some h
  simp [decode, h0]

/-- All that decoding can answer: a fetch outside the image, an unknown opcode, or what its operands
answer. -/
theorem decode_cases (prog : List Byte) (pc0 : Nat) :
    (prog.length ≤ pc0 ∧ decode prog pc0 = .error (.progOutOfBounds pc0 1)) ∨
    (∃ b, prog[pc0]? = some b ∧ 27 < b.toNat ∧ decode prog pc0 = .error (.unknownOpcode pc0 b)) ∨
    (∃ op, prog[pc0]? = some (opcodeByte op) ∧ decode prog pc0 = decodeOperands op prog pc0) := by
  rcases hq : prog[pc0]? with _ | b
  · have hle := List.getElem?_eq_none_iff.1 hq
    have h0 : fetchByte prog pc0 0 = .error (.progOutOfBounds pc0 1) := fetchByte_of_le hle
    exact .inl ⟨hle, by simp [decode, h0]⟩
  · have h0 : fetchByte prog pc0 0 = .ok b := fetchByte_of_some hq
    rcases ho : opcodeOfByte b with _ | op
    · exact .inr (.inl ⟨b, rfl, opcodeOfByte_eq_none.1 ho, by simp [decode, h0, ho]⟩)
    · obtain rfl := opcodeOfByte_eq_some.1 ho
      exact .inr (.inr ⟨op, rfl, decode_of_opcode hq⟩)

/-! ### Bytes at an address -/

@[simp] theorem BytesAt_nil (prog : List Byte) (a : Nat) : Machine.BytesAt prog a [] := by
  simp [Machine.BytesAt]

theorem BytesAt_cons {prog : List Byte} {a : Nat} {b : Byte} {bs : List Byte} :
    Machine.BytesAt prog a (b :: bs) ↔ prog[a]? = some b ∧ Machine.BytesAt prog (a + 1) bs := by
  simp only [Machine.BytesAt]
  rcases hd : prog.drop a with _ | ⟨c, rest⟩
  · have hle : prog.length ≤ a := List.drop_eq_nil_iff.1 hd
    simp [List.getElem?_eq_none hle]
  · have h0 : prog[a]? = some c := by
      have := List.getElem?_drop (xs := prog) (i := a) (j := 0)
      simpa [hd] using this.symm
    have h1 : prog.drop (a + 1) = rest := by
      have := List.drop_drop (i := 1) (j := a) (l := prog)
      rw [hd] at this
      simpa using this.symm
    simp [h0, h1]

theorem BytesAt_append {prog : List Byte} {a : Nat} {bs cs : List Byte} :
    Machine.BytesAt prog a (bs ++ cs) ↔
      Machine.BytesAt prog a bs ∧ Machine.BytesAt prog (a + bs.length) cs := by
  induction bs generalizing a with
  | nil => simp
  | cons b rest ih =>
    rw [List.cons_append, BytesAt_cons, BytesAt_cons, ih, List.length_cons, and_assoc,
      show a + 1 + rest.length = a + (rest.length + 1) by omega]

theorem BytesAt_self (pre bs post : List Byte) :
    Machine.BytesAt (pre ++ bs ++ post) pre.length bs := by
  simp [Machine.BytesAt]

theorem BytesAt_length {prog : List Byte} {a : Nat} {bs : List Byte}
    (h : Machine.BytesAt prog a bs) (hb : bs ≠ []) : a + bs.length ≤ prog.length := by
  have hl := congrArg List.length h
  have := List.length_pos_iff.2 hb
  simp only [List.length_take, List.length_drop] at hl
  omega

/-! ### Lengths (30_encoding.md R80, R85) -/

theorem encode_length (i : Instr) : (encode i).length = i.len := by
  cases i <;> simp [encode, operandBytes, Instr.len, Instr.opcode, Opcode.len, Opcode.operands,
    OperandKind.width]

theorem encode_ne_nil (i : Instr) : encode i ≠ [] := by simp [encode]

end Sys2Proof
end

