-- ==== Sys2Proof/Laws/Frame.lean ====
section
/-! SUPPORT. What a row of pushes and a row of pops do, for the frames of CALL and RETURN. -/

namespace Sys2Proof.Machine

theorem pushAll_append (s : State) (vs ws : List Word) :
    pushAll s (vs ++ ws) = pushAll s vs >>= fun t => pushAll t ws := by
  induction vs generalizing s with
  | nil => rfl
  | cons v vs ih =>
    simp only [List.cons_append, pushAll]
    cases push s v <;> simp [ih]

theorem popAll_append (s : State) (qs rs : List Reg) :
    popAll s (qs ++ rs) = popAll s qs >>= fun t => popAll t rs := by
  induction qs generalizing s with
  | nil => rfl
  | cons q qs ih =>
    simp only [List.cons_append, popAll]
    cases popInto s q <;> simp [ih]

/-- Pushes that fit: SP below them, each word where its push put it, and nothing else changed. -/
theorem pushAll_ok (s : State) (vs : List Word) (h1 : 4 * vs.length ≤ (getReg s .sp).toNat)
    (h2 : (getReg s .sp).toNat ≤ s.memSize) :
    ∃ t, pushAll s vs = .ok t ∧ getReg t .sp = getReg s .sp - BitVec.ofNat 32 (4 * vs.length) ∧
      (∀ r, r ≠ .sp → getReg t r = getReg s r ∧ isModified t r = isModified s r) ∧
      (vs ≠ [] → isModified t .sp = true) ∧ SameControl s t ∧
      (∀ k v, vs[k]? = some v → wordAt t ((getReg s .sp).toNat - 4 * (k + 1)) = v) ∧
      ∀ a, a < (getReg s .sp).toNat - 4 * vs.length ∨ (getReg s .sp).toNat ≤ a →
        t.mem.readByte a = s.mem.readByte a := by
  induction vs generalizing s with
  | nil => exact ⟨s, rfl, by simp, by simp, by simp, ⟨rfl, rfl, rfl, rfl, rfl⟩, by simp, by simp⟩
  | cons v vs ih =>
    simp only [List.length_cons] at h1
    have hsp : (getReg s .sp - 4).toNat = (getReg s .sp).toNat - 4 := by bv_omega
    have hp : push s v = .ok (setReg { s with mem := s.mem.writeBytes (getReg s .sp - 4).toNat (wordBytes v) }
        .sp (getReg s .sp - 4)) := by rw [push_eq, if_pos (by omega)]
    obtain ⟨t, ht, hsp', hr, hmod, hc, hw, hm⟩ := ih (setReg { s with
        mem := s.mem.writeBytes (getReg s .sp - 4).toNat (wordBytes v) } .sp (getReg s .sp - 4))
      (by rw [getReg_setReg_same]; omega) (by rw [getReg_setReg_same]; simp only [setReg_memSize]; omega)
    rw [getReg_setReg_same] at hsp' hw hm
    rw [hsp] at hw hm
    refine ⟨t, by rw [pushAll, hp]; exact ht, ?_, ?_, ?_, hc, ?_, ?_⟩
    · rw [hsp', List.length_cons, Nat.mul_add, BitVec.ofNat_add]
      generalize BitVec.ofNat 32 (4 * vs.length) = x
      bv_omega
    · intro r h
      obtain ⟨e1, e2⟩ := hr r h
      simp [e1, e2, getReg_setReg, isModified_setReg, h]
    · intro _
      by_cases hv : vs = []
      · subst hv
        simp only [pushAll, Except.ok.injEq] at ht
        rw [← ht, isModified_setReg, if_pos rfl]
      · exact hmod hv
    · intro k w hk
      cases k with
      | zero =>
        simp only [List.getElem?_cons_zero, Option.some.injEq] at hk
        subst hk
        rw [wordAt_congr (s := { s with mem := s.mem.writeBytes (getReg s .sp - 4).toNat (wordBytes v) }) ?_]
        · rw [← hsp]; exact wordAt_writeBytes_same s _ _ v
        · intro c h3 h4
          rw [hm c (by omega), ← hsp]; rfl
      | succ k =>
        rw [← hw k w (by simpa using hk)]; congr 1; omega
    · intro a ha
      simp only [List.length_cons] at ha
      rw [hm a (by omega)]
      exact Memory.readByte_writeBytes_outside _ _ _ (by rw [wordBytes_length]; omega)

/-- Pops that fit, none of them into SP: SP above them, each register with the word of its last pop, and
nothing else changed. -/
theorem popAll_ok (s : State) (rs : List Reg) (hsp : .sp ∉ rs)
    (h : (getReg s .sp).toNat + 4 * rs.length ≤ s.memSize)
    (hm : (getReg s .sp).toNat + 4 * rs.length ≤ 2 ^ 32) :
    ∃ t, popAll s rs = .ok t ∧ getReg t .sp = getReg s .sp + BitVec.ofNat 32 (4 * rs.length) ∧
      (∀ r, r ≠ .sp → r ∉ rs → getReg t r = getReg s r ∧ isModified t r = isModified s r) ∧
      (∀ r, r ∈ rs ∨ (r = .sp ∧ rs ≠ []) → isModified t r = true) ∧ SameControl s t ∧ t.mem = s.mem ∧
      ∀ k r, rs[k]? = some r → r ∉ rs.drop (k + 1) →
        getReg t r = wordAt s ((getReg s .sp).toNat + 4 * k) := by
  induction rs generalizing s with
  | nil => exact ⟨s, rfl, by simp, by simp, by simp, ⟨rfl, rfl, rfl, rfl, rfl⟩, rfl, by simp⟩
  | cons q rs ih =>
    simp only [List.mem_cons, not_or] at hsp
    simp only [List.length_cons] at h hm
    let u := setReg (setReg s .sp (getReg s .sp + 4)) q (wordAt s (getReg s .sp).toNat)
    have hp : popInto s q = .ok u := by rw [popInto_eq, if_pos (by omega)]
    have husp : getReg u .sp = getReg s .sp + 4 := by
      rw [getReg_setReg, if_neg hsp.1, getReg_setReg_same]
    have hlt := (getReg s .sp).isLt
    have hnat : rs = [] ∨ (getReg u .sp).toNat = (getReg s .sp).toNat + 4 := by
      cases rs with
      | nil => exact .inl rfl
      | cons _ rs => simp only [List.length_cons] at hm; rw [husp]; right; bv_omega
    have hfit : rs = [] ∨ (getReg u .sp).toNat + 4 * rs.length ≤ u.memSize := by
      rcases hnat with h' | h'
      · exact .inl h'
      · right; rw [h']; change _ ≤ s.memSize; omega
    have hu : ∀ r, getReg u r = if r = q then wordAt s (getReg s .sp).toNat
        else if r = .sp then getReg s .sp + 4 else getReg s r := fun r => by
      rw [getReg_setReg, getReg_setReg]
    have hum : ∀ r, isModified u r = if r = q then true else if r = .sp then true else isModified s r :=
      fun r => by rw [isModified_setReg, isModified_setReg]
    rcases hfit with rfl | hfit
    · refine ⟨u, by rw [popAll, hp]; rfl, husp, ?_, ?_, ⟨rfl, rfl, rfl, rfl, rfl⟩, rfl, ?_⟩
      · intro r h1 h2
        rw [hu, hum]
        simp_all
      · intro r hr
        rw [hum]
        rcases hr with hr | ⟨rfl, -⟩ <;> simp_all
      · intro k r hk _
        cases k with
        | zero => rw [hu]; simp_all
        | succ k => simp at hk
    · have hnat' : rs = [] ∨ (getReg u .sp).toNat = (getReg s .sp).toNat + 4 := hnat
      obtain ⟨t, ht, hsp', hr, hmod, hc, hmem, hw⟩ := ih u hsp.2 hfit (by
        rcases hnat with rfl | h'
        · simp only [List.length_nil]; have := (getReg u .sp).isLt; omega
        · omega)
      refine ⟨t, by rw [popAll, hp]; exact ht, ?_, ?_, ?_, hc, hmem, ?_⟩
      · rw [hsp', husp, List.length_cons, Nat.mul_add, BitVec.ofNat_add]
        generalize BitVec.ofNat 32 (4 * rs.length) = x
        bv_omega
      · intro r h1 h2
        simp only [List.mem_cons, not_or] at h2
        obtain ⟨e1, e2⟩ := hr r h1 h2.2
        rw [e1, e2, hu, hum]
        simp [h1, h2.1]
      · intro r hr'
        by_cases hin : r ∈ rs
        · exact hmod r (.inl hin)
        · by_cases hs : r = .sp
          · subst hs
            by_cases he : rs = []
            · subst he
              simp only [popAll, Except.ok.injEq] at ht
              rw [← ht, hum]; simp
            · exact hmod .sp (.inr ⟨rfl, he⟩)
          · obtain ⟨-, e2⟩ := hr r hs hin
            rw [e2, hum]
            simp_all
      · intro k r hk hd
        cases k with
        | zero =>
          simp only [List.getElem?_cons_zero, Option.some.injEq] at hk
          subst hk
          simp only [Nat.zero_add, List.drop_succ_cons, List.drop_zero] at hd
          obtain ⟨e1, -⟩ := hr q (Ne.symm hsp.1) hd
          rw [e1, hu, if_pos rfl]; rfl
        | succ k =>
          have hne : rs ≠ [] := by rintro rfl; simp at hk
          rw [hw k r (by simpa using hk) (by simpa using hd), hnat'.resolve_left hne]
          change wordAt s _ = _
          congr 1; omega

end Sys2Proof.Machine
end

