-- ==== Sys2Proof/Laws/Effect.lean ====
section
/-! SUPPORT. What the effect of an instruction can do, and what a step can do, said once. -/

namespace Sys2Proof.Machine

/-! ### The stack -/

/-- A push that completes moves SP and may change memory, and does nothing else. -/
theorem push_next {s t : State} {v : Word} (h : push s v = .ok t) :
    t = setReg { s with mem := t.mem } .sp (getReg s .sp - 4) := by
  rw [push_eq] at h; split at h <;> cases h; rfl

theorem pushAll_next {s t : State} {vs : List Word} (h : pushAll s vs = .ok t) :
    SameControl s t ∧
      ∀ r, r ≠ .sp → getReg t r = getReg s r ∧ isModified t r = isModified s r := by
  induction vs generalizing s with
  | nil => cases h; exact ⟨⟨rfl, rfl, rfl, rfl, rfl⟩, fun _ _ => ⟨rfl, rfl⟩⟩
  | cons v vs ih =>
    simp only [pushAll, except_bind_eq_ok] at h
    obtain ⟨u, hu, h⟩ := h
    obtain ⟨c, r⟩ := ih h
    rw [push_next hu] at c r
    refine ⟨c, fun q hq => ?_⟩
    obtain ⟨e1, e2⟩ := r q hq
    rw [e1, e2]; simp [getReg_setReg, isModified_setReg, hq]

/-- A pop that completes writes SP and the register, and nothing else. -/
theorem popInto_next {s t : State} {r : Reg} (h : popInto s r = .ok t) :
    SameControl s t ∧ t.mem = s.mem ∧
      ∀ q, q ≠ .sp → q ≠ r → getReg t q = getReg s q ∧ isModified t q = isModified s q := by
  rw [popInto_eq] at h; split at h <;> cases h
  refine ⟨⟨rfl, rfl, rfl, rfl, rfl⟩, rfl, fun q h1 h2 => ?_⟩
  simp [getReg_setReg, isModified_setReg, h1, h2]

theorem popAll_next {s t : State} {rs : List Reg} (h : popAll s rs = .ok t) :
    SameControl s t ∧ t.mem = s.mem ∧
      ∀ q, q ≠ .sp → q ∉ rs → getReg t q = getReg s q ∧ isModified t q = isModified s q := by
  induction rs generalizing s with
  | nil => cases h; exact ⟨⟨rfl, rfl, rfl, rfl, rfl⟩, rfl, fun _ _ _ => ⟨rfl, rfl⟩⟩
  | cons r rs ih =>
    simp only [popAll, except_bind_eq_ok] at h
    obtain ⟨u, hu, h⟩ := h
    obtain ⟨c, m, h'⟩ := ih h
    obtain ⟨c', m', g⟩ := popInto_next hu
    refine ⟨?_, by rw [m, m'], fun q h1 h2 => ?_⟩
    · obtain ⟨a1, a2, a3, a4, a5⟩ := c; obtain ⟨b1, b2, b3, b4, b5⟩ := c'
      exact ⟨a1.trans b1, a2.trans b2, a3.trans b3, a4.trans b4, a5.trans b5⟩
    · simp only [List.mem_cons, not_or] at h2
      rw [(h' q h1 h2.2).1, (h' q h1 h2.2).2]; exact g q h1 h2.1

/-! ### The effect of an instruction -/

/-- A completed effect: which registers and whether memory can have changed, and that of the rest only RUN
can, by HALT. -/
theorem effectOf_next {i : Instr} {s t : State} (h : effectOf i s = .ok t) :
    t.memSize = s.memSize ∧ t.prog = s.prog ∧ t.fault = s.fault ∧ t.mode = s.mode ∧
    (t.run = if i = .halt then .halted else s.run) ∧ (mayStore i = false → t.mem = s.mem) ∧
    ∀ r, r ∉ writtenRegs i → getReg t r = getReg s r ∧ isModified t r = isModified s r := by
  cases i
  case call target =>
    simp only [effectOf, callEffect, except_bind_eq_ok] at h
    obtain ⟨u, hu, h⟩ := h
    obtain ⟨⟨a1, a2, a3, a4, a5⟩, r⟩ := pushAll_next hu
    cases h
    refine ⟨a1, a2, a4, a5, by simpa [jumpTo] using a3, by simp [mayStore], fun q hq => ?_⟩
    simp only [writtenRegs, List.mem_cons, List.not_mem_nil, or_false, not_or] at hq
    have := r q hq.1
    simp [jumpTo, getReg_setReg, isModified_setReg, hq, this]
  case ret =>
    simp only [effectOf, returnEffect] at h
    obtain ⟨⟨a1, a2, a3, a4, a5⟩, m, r⟩ := popAll_next h
    refine ⟨a1, a2, a4, a5, by simpa using a3, fun _ => m, fun q hq => ?_⟩
    cases q <;> simp [writtenRegs] at hq
  case popReg dst =>
    obtain ⟨⟨a1, a2, a3, a4, a5⟩, m, r⟩ := popInto_next h
    refine ⟨a1, a2, a4, a5, by simpa using a3, fun _ => m, fun q hq => ?_⟩
    simp only [writtenRegs, List.mem_cons, List.not_mem_nil, or_false, not_or] at hq
    exact r q hq.1 hq.2
  case pushLit v =>
    have := push_next h
    rw [this]
    refine ⟨rfl, rfl, rfl, rfl, by simp, by simp [mayStore], fun q hq => ?_⟩
    simp only [writtenRegs, List.mem_cons, List.not_mem_nil, or_false, not_or] at hq
    simp [getReg_setReg, isModified_setReg, hq]
  case pushReg v =>
    have := push_next h
    rw [this]
    refine ⟨rfl, rfl, rfl, rfl, by simp, by simp [mayStore], fun q hq => ?_⟩
    simp only [writtenRegs, List.mem_cons, List.not_mem_nil, or_false, not_or] at hq
    simp [getReg_setReg, isModified_setReg, hq]
  all_goals simp only [effectOf, condJump, except_bind_eq_ok, memRead32_eq, memWrite32_eq] at h
  case movMemReg | movMemMem | incMem | decMem =>
    obtain ⟨v, hv, h⟩ := h
    (repeat' split at h) <;> cases h <;>
      refine ⟨rfl, rfl, rfl, rfl, by simp [jumpTo], by simp [mayStore, jumpTo], fun q hq => ?_⟩ <;>
      simp only [writtenRegs, List.mem_cons, List.not_mem_nil, or_false, not_or] at hq <;>
      simp_all [jumpTo, getReg_setReg, isModified_setReg]
  all_goals (repeat' split at h) <;> cases h <;>
    refine ⟨rfl, rfl, rfl, rfl, by simp [jumpTo], by simp [mayStore, jumpTo], fun q hq => ?_⟩ <;>
    simp only [writtenRegs, List.mem_cons, List.not_mem_nil, or_false, not_or] at hq <;>
    simp_all [jumpTo, getReg_setReg, isModified_setReg]
  all_goals rfl

theorem push_error {s : State} {v : Word} {f : FaultCause} (h : push s v = .error f) :
    f = .memOutOfBounds (getReg s .sp - 4).toNat 4 ∧ s.memSize < (getReg s .sp - 4).toNat + 4 := by
  rw [push_eq] at h; split at h <;> cases h; exact ⟨rfl, by omega⟩

theorem popInto_error {s : State} {r : Reg} {f : FaultCause} (h : popInto s r = .error f) :
    f = .memOutOfBounds (getReg s .sp).toNat 4 ∧ s.memSize < (getReg s .sp).toNat + 4 := by
  rw [popInto_eq] at h; split at h <;> cases h; exact ⟨rfl, by omega⟩

theorem pushAll_error {s : State} {vs : List Word} {f : FaultCause} (h : pushAll s vs = .error f) :
    ∃ a, f = .memOutOfBounds a 4 ∧ s.memSize < a + 4 ∧ a < 2 ^ 32 := by
  induction vs generalizing s with
  | nil => cases h
  | cons v vs ih =>
    simp only [pushAll, except_bind_eq_error] at h
    rcases h with h | ⟨u, hu, h⟩
    · obtain ⟨rfl, h'⟩ := push_error h; exact ⟨_, rfl, h', BitVec.isLt _⟩
    · have := ih h; rw [push_next hu] at this; exact this

theorem popAll_error {s : State} {rs : List Reg} {f : FaultCause} (h : popAll s rs = .error f) :
    ∃ a, f = .memOutOfBounds a 4 ∧ s.memSize < a + 4 ∧ a < 2 ^ 32 := by
  induction rs generalizing s with
  | nil => cases h
  | cons r rs ih =>
    simp only [popAll, except_bind_eq_error] at h
    rcases h with h | ⟨u, hu, h⟩
    · obtain ⟨rfl, h'⟩ := popInto_error h; exact ⟨_, rfl, h', BitVec.isLt _⟩
    · have := ih h; rw [(popInto_next hu).1.1] at this; exact this

/-- The only fault an effect raises is of working memory. -/
theorem effectOf_error {i : Instr} {s : State} {f : FaultCause} (h : effectOf i s = .error f) :
    ∃ a, f = .memOutOfBounds a 4 ∧ s.memSize < a + 4 ∧ a < 2 ^ 32 := by
  cases i
  case call target =>
    simp only [effectOf, callEffect, except_bind_eq_error] at h
    rcases h with h | ⟨u, hu, h⟩
    · exact pushAll_error h
    · cases h
  case ret =>
    obtain ⟨a, h1, h2, h3⟩ := popAll_error (show popAll (setReg s .sp (getReg s .fp)) _ = _ from h)
    exact ⟨a, h1, h2, h3⟩
  case popReg => obtain ⟨rfl, h'⟩ := popInto_error h; exact ⟨_, rfl, h', BitVec.isLt _⟩
  case pushLit => obtain ⟨rfl, h'⟩ := push_error h; exact ⟨_, rfl, h', BitVec.isLt _⟩
  case pushReg => obtain ⟨rfl, h'⟩ := push_error h; exact ⟨_, rfl, h', BitVec.isLt _⟩
  all_goals simp only [effectOf, condJump, except_bind_eq_error, memRead32_eq, memWrite32_eq] at h
  case movMemReg | movMemMem | incMem | decMem =>
    rcases h with h | ⟨v, hv, h⟩ <;> (try split at h) <;> cases h
    all_goals exact ⟨_, rfl, by omega, BitVec.isLt _⟩
  all_goals (try split at h) <;> cases h
  all_goals exact ⟨_, rfl, by omega, BitVec.isLt _⟩

/-! ### The step (40_execution_cycle.md R145) -/

/-- All a step of a running machine can do: take a fault, of its decoding or of its instruction, in the state
it began in, or complete the instruction it decodes. -/
theorem step_running_cases {s t : State} (hr : s.run = .running) (h : step s = .next t) :
    (∃ f, t = raiseFault s f ∧
      (decode s.prog (getReg s .ip).toNat = .error f ∨
        ∃ i, decode s.prog (getReg s .ip).toNat = .ok i ∧ effectOf i (advance i.opcode s) = .error f)) ∨
    ∃ i, decode s.prog (getReg s .ip).toNat = .ok i ∧ effectOf i (advance i.opcode s) = .ok t := by
  simp only [step, hr, fetchInstr] at h
  rcases hd : decode s.prog (getReg s .ip).toNat with f | i
  · rw [hd] at h; cases h; exact .inl ⟨f, rfl, .inl rfl⟩
  · rw [hd] at h; simp only [exec_eq] at h
    rcases execute_cases h with h | ⟨f, h', rfl⟩
    · exact .inr ⟨i, rfl, h⟩
    · exact .inl ⟨f, rfl, .inr ⟨i, rfl, h'⟩⟩

/-! ### No effect clears a modified bit (10_state.md R37) -/

theorem isModified_setReg_of {s : State} {r q : Reg} {v : Word} (h : isModified s q = true) :
    isModified (setReg s r v) q = true := by
  rw [isModified_setReg]; split <;> simp [h]

theorem pushAll_keeps_marks {s t : State} {vs : List Word} {r : Reg} (h : pushAll s vs = .ok t)
    (hr : isModified s r = true) : isModified t r = true := by
  induction vs generalizing s with
  | nil => cases h; exact hr
  | cons v vs ih =>
    simp only [pushAll, except_bind_eq_ok] at h
    obtain ⟨u, hu, h⟩ := h
    refine ih h ?_
    rw [push_next hu]
    exact isModified_setReg_of hr

theorem popInto_keeps_marks {s t : State} {q r : Reg} (h : popInto s q = .ok t)
    (hr : isModified s r = true) : isModified t r = true := by
  rw [popInto_eq] at h; split at h <;> cases h
  exact isModified_setReg_of (isModified_setReg_of hr)

theorem popAll_keeps_marks {s t : State} {rs : List Reg} {r : Reg} (h : popAll s rs = .ok t)
    (hr : isModified s r = true) : isModified t r = true := by
  induction rs generalizing s with
  | nil => cases h; exact hr
  | cons q rs ih =>
    simp only [popAll, except_bind_eq_ok] at h
    obtain ⟨u, hu, h⟩ := h
    exact ih h (popInto_keeps_marks hu hr)

theorem effectOf_keeps_marks {i : Instr} {s t : State} {r : Reg} (h : effectOf i s = .ok t)
    (hr : isModified s r = true) : isModified t r = true := by
  by_cases hw : r ∈ writtenRegs i
  · cases i
    case call target =>
      simp only [effectOf, callEffect, except_bind_eq_ok] at h
      obtain ⟨u, hu, h⟩ := h
      cases h
      exact isModified_setReg_of (isModified_setReg_of (pushAll_keeps_marks hu hr))
    case ret =>
      simp only [effectOf, returnEffect] at h
      exact popAll_keeps_marks h (isModified_setReg_of hr)
    case movMemReg =>
      simp only [effectOf, except_bind_eq_ok] at h
      obtain ⟨v, -, h⟩ := h
      cases h
      exact isModified_setReg_of hr
    all_goals simp only [effectOf, condJump] at h
    all_goals first
      | (cases hw; done)
      | (rw [push_next h]; exact isModified_setReg_of hr)
      | exact popInto_keeps_marks h hr
      | (cases h; exact isModified_setReg_of hr)
      | (split at h <;> cases h; exacts [isModified_setReg_of hr, hr])
  · rw [((effectOf_next h).2.2.2.2.2.2 r hw).2]; exact hr

/-- A step leaves every modified bit that is set: only reset_modified clears one (R37). -/
theorem step_keeps_marks {s t : State} {r : Reg} (h : step s = .next t)
    (hr : isModified s r = true) : isModified t r = true := by
  cases hs : s.run with
  | halted => simp only [step, hs] at h; cases h; exact hr
  | running =>
    rcases step_running_cases hs h with ⟨f, rfl, -⟩ | ⟨i, -, he⟩
    · exact hr
    · exact effectOf_keeps_marks he (isModified_setReg_of hr)

end Sys2Proof.Machine
end

