-- ==== Sys2Proof/Laws/Host.lean ====
section
/-! SUPPORT. What each host access can do, said once: the provers cite these instead of unfolding. -/

namespace Sys2Proof.Machine

/-- A change the host makes to a halted machine goes through. -/
theorem whileHalted_halted {α : Type} {s : State} (h : s.run = .halted)
    (op : Host.Outcome α Fault Refusal) : whileHalted s op = op := by simp [whileHalted, h]

/-- One it makes to a running machine is refused. -/
theorem whileHalted_running {α : Type} {s : State} (h : s.run = .running)
    (op : Host.Outcome α Fault Refusal) : whileHalted s op = .refused .hostWhileRunning := by
  simp [whileHalted, h]

/-- The host's read of bytes. -/
theorem hostReadBytes_eq (s : State) (a n : Nat) :
    hostReadBytes s a n =
      if a + n ≤ s.memSize then .next (s.mem.readBytes a n) else .fault (.hostAccessOutOfBounds a n) := by
  simp [hostReadBytes, inBounds]

/-- The host's typed read. -/
theorem hostRead_eq (s : State) (a n : Nat) :
    hostRead s a n =
      if a + n ≤ s.memSize then .next (beValue (s.mem.readBytes a n))
      else .fault (.hostAccessOutOfBounds a n) := by
  by_cases h : a + n ≤ s.memSize <;> simp [hostRead, memRead, inBounds, h]

/-- The host's typed write to a halted machine. -/
theorem hostWrite_eq {s : State} (h : s.run = .halted) (a n v : Nat) :
    hostWrite a n v s =
      if a + n ≤ s.memSize then .next { s with mem := s.mem.writeBytes a (beBytes n v) }
      else .fault (.hostAccessOutOfBounds a n) := by
  rw [hostWrite, whileHalted_halted h]
  by_cases hn : a + n ≤ s.memSize <;> simp [memWrite, inBounds, hn]

/-- The host's load into a halted machine. -/
theorem load_eq {s : State} (h : s.run = .halted) (bytes : List Byte) :
    load bytes s =
      if bytes.length ≤ Config.maxSize then .next { s with prog := bytes } else .refused .imageTooLong := by
  rw [load, whileHalted_halted h]

/-- A snapshot's copy of memory, byte by byte. -/
theorem snapshot_mem_getElem? (s : State) {a : Nat} (h : a < s.memSize) :
    (snapshot s).mem[a]? = some (s.mem.readByte a) := by
  simp [snapshot, Memory.readBytes_getElem? s.mem 0 s.memSize a h]

end Sys2Proof.Machine
end

