-- ==== Sys2Proof/Laws/PerInstr.lean ====
section
/-! SUPPORT. Facts about instructions as syntax, one lemma per constructor. The family EncodeLength says that
an instruction's bytes are as many as its opcode says (30_encoding.md R80, R85). -/

namespace Sys2Proof.Laws.EncodeLength

/-- The bytes of an instruction are as many as the LEN of its opcode. -/
def Statement (i : Instr) : Prop := (encode i).length = i.opcode.len

theorem halt : Statement .halt := encode_length _
theorem pushLit (lit : Word) : Statement (.pushLit lit) := encode_length _
theorem pushReg (src : Reg) : Statement (.pushReg src) := encode_length _
theorem popReg (dst : Reg) : Statement (.popReg dst) := encode_length _
theorem movLitReg (lit : Word) (dst : Reg) : Statement (.movLitReg lit dst) := encode_length _
theorem movRegReg (src dst : Reg) : Statement (.movRegReg src dst) := encode_length _
theorem movMemReg (mem : Word) (dst : Reg) : Statement (.movMemReg mem dst) := encode_length _
theorem movLitMem (lit mem : Word) : Statement (.movLitMem lit mem) := encode_length _
theorem movRegMem (src : Reg) (mem : Word) : Statement (.movRegMem src mem) := encode_length _
theorem movMemMem (srcmem dstmem : Word) : Statement (.movMemMem srcmem dstmem) := encode_length _
theorem addLitReg (lit : Word) (dst : Reg) : Statement (.addLitReg lit dst) := encode_length _
theorem subLitReg (lit : Word) (dst : Reg) : Statement (.subLitReg lit dst) := encode_length _
theorem addRegReg (src dst : Reg) : Statement (.addRegReg src dst) := encode_length _
theorem subRegReg (src dst : Reg) : Statement (.subRegReg src dst) := encode_length _
theorem addRegRegReg (srcA srcB dst : Reg) : Statement (.addRegRegReg srcA srcB dst) :=
  encode_length _
theorem incReg (reg : Reg) : Statement (.incReg reg) := encode_length _
theorem decReg (reg : Reg) : Statement (.decReg reg) := encode_length _
theorem incMem (mem : Word) : Statement (.incMem mem) := encode_length _
theorem decMem (mem : Word) : Statement (.decMem mem) := encode_length _
theorem jmp (target : Word) : Statement (.jmp target) := encode_length _
theorem jmpNe (reg : Reg) (target : Word) : Statement (.jmpNe reg target) := encode_length _
theorem jmpEq (reg : Reg) (target : Word) : Statement (.jmpEq reg target) := encode_length _
theorem jmpGt (reg : Reg) (target : Word) : Statement (.jmpGt reg target) := encode_length _
theorem jmpLt (reg : Reg) (target : Word) : Statement (.jmpLt reg target) := encode_length _
theorem jmpGe (reg : Reg) (target : Word) : Statement (.jmpGe reg target) := encode_length _
theorem jmpLe (reg : Reg) (target : Word) : Statement (.jmpLe reg target) := encode_length _
theorem call (target : Word) : Statement (.call target) := encode_length _
theorem ret : Statement .ret := encode_length _

end Sys2Proof.Laws.EncodeLength
end

