-- ==== Sys2Proof/Tests/Slice0.lean ====
section
/-! SUPPORT. The model's own tests: each names the vector of 95_test_vectors.md it takes its expected values
from. Then, for every obligation with hypotheses, a state that meets them. -/

namespace Sys2Proof.Tests

open Sys2Proof.Machine

/-! ### Helpers -/

/-- The machine after reset, load and `start(0, NORMAL)`. -/
def vm (prog : List Byte) : State := start 0 .normal { State.reset with prog := prog }

/-- The same with zeros before the bytes, started at them. -/
def vmAt (pc0 : Nat) (bytes : List Byte) : State :=
  start (BitVec.ofNat 32 pc0) .normal { State.reset with prog := List.replicate pc0 0 ++ bytes }

/-- One register given a value, its modified bit left. -/
def setR (r : Reg) (v : Word) (s : State) : State := { s with regs := s.regs.set r v }

/-- Bytes put in working memory. -/
def setM (a : Nat) (bs : List Byte) (s : State) : State := { s with mem := s.mem.writeBytes a bs }

/-- The state of an outcome; a stop gives the reset state. -/
def resultOf (o : Host.Outcome State Fault Refusal) : State :=
  match o with
  | .next t => t
  | _ => State.reset

/-- The outcome is a next state. -/
def isNext (o : Host.Outcome State Fault Refusal) : Bool :=
  match o with
  | .next _ => true
  | _ => false

theorem eq_next_resultOf {o : Host.Outcome State Fault Refusal} (h : isNext o = true) :
    o = .next (resultOf o) := by
  cases o <;> first | rfl | cases h

/-- The state after one step. -/
def one (s : State) : State := resultOf (step s)

/-- A fault leaves the state it began in with RUN and FAULT changed (R250). -/
abbrev FaultsWith (s : State) (f : FaultCause) : Prop :=
  one s = { s with run := .halted, fault := some f }

/-- A line of assembly, an instruction and its bytes belong together. -/
abbrev Encodes (line : String) (i : Instr) (bytes : List Byte) : Prop :=
  decode bytes 0 = .ok i ∧ encode i = bytes ∧ assemble line.toList = .ok bytes

/-! ### WellFormed refuses what is ill formed -/

theorem test_wf_unknown_opcode : opcodeKnown 0x1C = false ∧ opcodeKnown 0xFF = false ∧
    opcodeKnown 0x1B = true := by decide
theorem test_wf_unknown_register : regIdKnown 0x08 = false ∧ regIdKnown 0x87 = false ∧
    regIdKnown 0x07 = true := by decide
theorem test_wf_size_too_large : sizeOk 4294967297 = false ∧ sizeOk 4294967296 = true := by decide
theorem test_wf_params : paramsOk (Config.Params.ofMemSize 4294967297) = false ∧
    paramsOk Config.Params.standard = true := by decide
theorem test_wf_truncated : instrBytesOk [0x04, 0, 0, 0, 1] = false ∧ instrBytesOk [] = false := by decide
theorem test_wf_over_long : instrBytesOk [0x00, 0x00] = false ∧ instrBytesOk [0x00] = true := by decide
theorem test_wf_bad_bytes : instrBytesOk [0x05, 0x01, 0x08] = false ∧
    instrBytesOk [0x1C] = false := by decide

/-! ### Encodings, one per constructor (E0 to E27) -/

theorem test_halt_encoding : Encodes "halt" (.halt)
    [0x00] := by decide
theorem test_pushLit_encoding : Encodes "push $0x11223344" (.pushLit 0x11223344)
    [0x01, 0x11, 0x22, 0x33, 0x44] := by decide
theorem test_pushReg_encoding : Encodes "push r3" (.pushReg .r3)
    [0x02, 0x03] := by decide
theorem test_popReg_encoding : Encodes "pop fp" (.popReg .fp)
    [0x03, 0x07] := by decide
theorem test_movLitReg_encoding : Encodes "mov $0xA1B2C3D4 sp" (.movLitReg 0xA1B2C3D4 .sp)
    [0x04, 0xA1, 0xB2, 0xC3, 0xD4, 0x06] := by decide
theorem test_movRegReg_encoding : Encodes "mov r1 r2" (.movRegReg .r1 .r2)
    [0x05, 0x01, 0x02] := by decide
theorem test_movMemReg_encoding : Encodes "mov &0x1234 r0" (.movMemReg 0x1234 .r0)
    [0x06, 0x00, 0x00, 0x12, 0x34, 0x00] := by decide
theorem test_movLitMem_encoding : Encodes "mov $0x00486579 &0x1234" (.movLitMem 0x00486579 0x1234)
    [0x07, 0x00, 0x48, 0x65, 0x79, 0x00, 0x00, 0x12, 0x34] := by decide
theorem test_movRegMem_encoding : Encodes "mov acc &0x100" (.movRegMem .acc 0x100)
    [0x08, 0x04, 0x00, 0x00, 0x01, 0x00] := by decide
theorem test_movMemMem_encoding : Encodes "mov &0x10 &0x20" (.movMemMem 0x10 0x20)
    [0x09, 0x00, 0x00, 0x00, 0x10, 0x00, 0x00, 0x00, 0x20] := by decide
theorem test_addLitReg_encoding : Encodes "add $10 r0" (.addLitReg 10 .r0)
    [0x0A, 0x00, 0x00, 0x00, 0x0A, 0x00] := by decide
theorem test_subLitReg_encoding : Encodes "sub $0xFF r3" (.subLitReg 0xFF .r3)
    [0x0B, 0x00, 0x00, 0x00, 0xFF, 0x03] := by decide
theorem test_addRegReg_encoding : Encodes "add r1 r2" (.addRegReg .r1 .r2)
    [0x0C, 0x01, 0x02] := by decide
theorem test_subRegReg_encoding : Encodes "sub r1 r2" (.subRegReg .r1 .r2)
    [0x0D, 0x01, 0x02] := by decide
theorem test_addRegRegReg_encoding : Encodes "add r0 r1 acc" (.addRegRegReg .r0 .r1 .acc)
    [0x0E, 0x00, 0x01, 0x04] := by decide
theorem test_incReg_encoding : Encodes "inc r1" (.incReg .r1)
    [0x0F, 0x01] := by decide
theorem test_decReg_encoding : Encodes "dec ACC" (.decReg .acc)
    [0x10, 0x04] := by decide
theorem test_incMem_encoding : Encodes "inc &0x200" (.incMem 0x200)
    [0x11, 0x00, 0x00, 0x02, 0x00] := by decide
theorem test_decMem_encoding : Encodes "dec &65532" (.decMem 65532)
    [0x12, 0x00, 0x00, 0xFF, 0xFC] := by decide
theorem test_jmp_encoding : Encodes "jmp $0x10" (.jmp 0x10)
    [0x13, 0x00, 0x00, 0x00, 0x10] := by decide
theorem test_jmpNe_encoding : Encodes "jne r1 $6" (.jmpNe .r1 6)
    [0x14, 0x01, 0x00, 0x00, 0x00, 0x06] := by decide
theorem test_jmpEq_encoding : Encodes "je r0 $0x40" (.jmpEq .r0 0x40)
    [0x15, 0x00, 0x00, 0x00, 0x00, 0x40] := by decide
theorem test_jmpGt_encoding : Encodes "jg r1 $0x20" (.jmpGt .r1 0x20)
    [0x16, 0x01, 0x00, 0x00, 0x00, 0x20] := by decide
theorem test_jmpLt_encoding : Encodes "jl r2 $0x20" (.jmpLt .r2 0x20)
    [0x17, 0x02, 0x00, 0x00, 0x00, 0x20] := by decide
theorem test_jmpGe_encoding : Encodes "jge r3 $0x20" (.jmpGe .r3 0x20)
    [0x18, 0x03, 0x00, 0x00, 0x00, 0x20] := by decide
theorem test_jmpLe_encoding : Encodes "jle fp $0x20" (.jmpLe .fp 0x20)
    [0x19, 0x07, 0x00, 0x00, 0x00, 0x20] := by decide
theorem test_call_encoding : Encodes "call $0x40" (.call 0x40)
    [0x1A, 0x00, 0x00, 0x00, 0x40] := by decide
theorem test_ret_encoding : Encodes "ret" (.ret)
    [0x1B] := by decide

/-- The table's numbering: the first byte is bits 7 to 0. -/
theorem test_table_word : decodeTableWord 24 0x020105 = some (.movRegReg .r1 .r2) ∧
    decodeTableWord 48 0x06D4C3B2A104 = some (.movLitReg 0xA1B2C3D4 .sp) ∧
    decodeTableWord 8 0x1C = none ∧ decodeTableWord 16 0x0803 = none := by decide
theorem test_withFetchWord :
    getReg (one (State.reset.withFetchWord 48 0x06D4C3B2A104)) .sp = 0xA1B2C3D4 := by
  decide

/-! ### One step of each instruction -/

theorem test_halt_X13 : let t := one (vm [0x00])
    t.run = .halted ∧ t.fault = none ∧ getReg t .ip = 1 := by decide
theorem test_pushLit_S1 : let t := one (vm [0x01, 0xDE, 0xAD, 0xBE, 0xEF])
    getReg t .sp = 0xFFFC ∧ getReg t .ip = 5 ∧
      t.mem.readBytes 0xFFFC 4 = [0xDE, 0xAD, 0xBE, 0xEF] := by decide
theorem test_pushLit_S7 : FaultsWith (setR .sp 0 (vm [0x01, 0x00, 0x00, 0x00,
    0x01])) (.memOutOfBounds 0xFFFFFFFC 4) := by decide
theorem test_pushReg_S3 : let t := one (vm [0x02, 0x06])
    getReg t .sp = 0xFFFC ∧ t.mem.readBytes 0xFFFC 4 = [0x00, 0x01, 0x00, 0x00] := by decide
theorem test_pushReg_S11 : let t := one (vmAt 0x20 [0x02, 0x05])
    getReg t .ip = 0x22 ∧ t.mem.readBytes 0xFFFC 4 = [0x00, 0x00, 0x00, 0x22] := by decide
theorem test_popReg_S5 : let t := one (setM 0xFFFC [0x00, 0x00, 0x10, 0x00] (setR .sp 0xFFFC (vm [0x03,
    0x06])))
    getReg t .sp = 0x1000 ∧ getReg t .ip = 2 := by decide
theorem test_popReg_S10 : FaultsWith (setR .sp 0xFFFD (vm [0x03,
    0x01])) (.memOutOfBounds 0xFFFD 4) := by decide
theorem test_movLitReg_M1 : let t := one (vm [0x04, 0x12, 0x12, 0x12, 0x12, 0x01])
    getReg t .r1 = 0x12121212 ∧ getReg t .ip = 6 := by decide
theorem test_movLitReg_M2 : let t := one (vm [0x04, 0x00, 0x00, 0x00, 0x40, 0x05])
    getReg t .ip = 0x40 := by decide
theorem test_movRegReg_M3 : let t := one (setR .r2 7 (vm [0x05, 0x02, 0x03]))
    getReg t .r3 = 7 ∧ getReg t .r2 = 7 ∧ getReg t .ip = 3 := by decide
theorem test_movRegReg_M4 : let t := one (vmAt 0x10 [0x05, 0x05, 0x00])
    getReg t .r0 = 0x13 ∧ getReg t .ip = 0x13 := by decide
theorem test_movMemReg_M17 : let t := one (setM 0 [0xAA, 0xBB, 0xCC, 0xDD, 0xEE] (vm [0x06, 0x00, 0x00,
    0x00, 0x01, 0x02]))
    getReg t .r2 = 0xBBCCDDEE ∧ getReg t .ip = 6 := by decide
theorem test_movMemReg_M7 : FaultsWith (vm [0x06, 0x00, 0x00, 0xFF, 0xFD,
    0x00]) (.memOutOfBounds 0xFFFD 4) := by decide
theorem test_movLitMem_M9 : let t := one (vm [0x07, 0x00, 0x48, 0x65, 0x79, 0x00, 0x00, 0x12, 0x34])
    t.mem.readBytes 0x1234 5 = [0x00, 0x48, 0x65, 0x79, 0x00] ∧ getReg t .ip = 9 := by decide
theorem test_movLitMem_M10 : FaultsWith (vm [0x07, 0x00, 0x00, 0x00, 0x01, 0xFF, 0xFF, 0xFF,
    0xFE]) (.memOutOfBounds 0xFFFFFFFE 4) := by decide
theorem test_movRegMem_M12 : let t := one (vmAt 0x30 [0x08, 0x05, 0x00, 0x00, 0x01, 0x00])
    t.mem.readBytes 0x100 4 = [0x00, 0x00, 0x00, 0x36] ∧ getReg t .ip = 0x36 := by decide
theorem test_movRegMem_M11 : let t := one (setR .acc 0xCAFEBABE (vm [0x08, 0x04, 0x00, 0x00, 0x01, 0x00]))
    t.mem.readBytes 0x100 4 = [0xCA, 0xFE, 0xBA, 0xBE] := by decide
theorem test_movMemMem_M14 : let t := one (setM 0x10 [0x01, 0x02, 0x03, 0x04] (vm [0x09, 0x00, 0x00,
    0x00, 0x10, 0x00, 0x00, 0x00, 0x12]))
    t.mem.readBytes 0x10 6 = [0x01, 0x02, 0x01, 0x02, 0x03, 0x04] ∧ getReg t .ip = 9 := by decide
theorem test_movMemMem_M15 : FaultsWith (vm [0x09, 0x00, 0x01, 0x00, 0x00, 0x00, 0x02, 0x00,
    0x00]) (.memOutOfBounds 0x10000 4) := by decide
theorem test_addLitReg_AR1 : let t := one (setR .r0 0xFFFFFFFF (vm [0x0A, 0x00, 0x00, 0x00, 0x02, 0x00]))
    getReg t .r0 = 1 ∧ getReg t .ip = 6 := by decide
theorem test_addLitReg_AR17 : let t := one (vmAt 0x20 [0x0A, 0x00, 0x00, 0x00, 0x10, 0x05])
    getReg t .ip = 0x36 := by decide
theorem test_subLitReg_AR2 : let t := one (setR .r1 3 (vm [0x0B, 0x00, 0x00, 0x00, 0x05, 0x01]))
    getReg t .r1 = 0xFFFFFFFE ∧ getReg t .ip = 6 := by decide
theorem test_addRegReg_AR3 : let t := one (setR .r2 7 (setR .r1 5 (vm [0x0C, 0x01, 0x02])))
    getReg t .r2 = 0xC ∧ getReg t .r1 = 5 ∧ getReg t .ip = 3 := by decide
theorem test_addRegReg_AR4 : let t := one (setR .r1 0x80000001 (vm [0x0C, 0x01, 0x01]))
    getReg t .r1 = 2 := by decide
theorem test_subRegReg_AR5 : let t := one (setR .r2 7 (setR .r1 5 (vm [0x0D, 0x01, 0x02])))
    getReg t .r2 = 2 ∧ getReg t .r1 = 5 := by decide
theorem test_subRegReg_AR6 : let t := one (setR .r2 7 (setR .r1 5 (vm [0x0D, 0x02, 0x01])))
    getReg t .r1 = 0xFFFFFFFE := by decide
theorem test_addRegRegReg_AR8 : let t := one (setR .r1 2 (setR .r0 1 (vm [0x0E, 0x00, 0x01, 0x04])))
    getReg t .acc = 3 ∧ getReg t .ip = 4 := by decide
theorem test_addRegRegReg_AR9 : let t := one (setR .r2 0xC0000000 (vm [0x0E, 0x02, 0x02, 0x02]))
    getReg t .r2 = 0x80000000 := by decide
theorem test_incReg_AR10 : let t := one (setR .r1 0xFFFFFFFF (vm [0x0F, 0x01]))
    getReg t .r1 = 0 ∧ getReg t .ip = 2 ∧ t.fault = none := by decide
theorem test_incReg_AR19 : let t := one (vmAt 0x10 [0x0F, 0x05])
    getReg t .ip = 0x13 := by decide
theorem test_decReg_AR11 : let t := one (vm [0x10, 0x03])
    getReg t .r3 = 0xFFFFFFFF ∧ getReg t .ip = 2 := by decide
theorem test_decReg_AR20 : let t := one (vmAt 0x10 [0x10, 0x05])
    getReg t .ip = 0x11 := by decide
theorem test_incMem_AR12 : let t := one (setM 0x100 [0x00, 0x00, 0x00, 0xFF] (vm [0x11, 0x00, 0x00,
    0x01, 0x00]))
    t.mem.readBytes 0x100 4 = [0x00, 0x00, 0x01, 0x00] ∧ getReg t .ip = 5 := by decide
theorem test_incMem_AR13 : let t := one (setM 0xFF [0x77, 0xFF, 0xFF, 0xFF, 0xFF, 0x77] (vm [0x11,
    0x00, 0x00, 0x01, 0x00]))
    t.mem.readBytes 0xFF 6 = [0x77, 0x00, 0x00, 0x00, 0x00, 0x77] ∧ t.mem.wf = true := by decide
theorem test_decMem_AR14 : let t := one (vm [0x12, 0x00, 0x00, 0x02, 0x00])
    t.mem.readBytes 0x200 4 = [0xFF, 0xFF, 0xFF, 0xFF] ∧ getReg t .ip = 5 := by decide
theorem test_decMem_AR15 : let t := one (setM 0x100 [0x00, 0x00, 0x01, 0x00] (vm [0x12, 0x00, 0x00,
    0x01, 0x00]))
    t.mem.readBytes 0x100 4 = [0x00, 0x00, 0x00, 0xFF] := by decide
theorem test_jmp_J1 : let t := one (vm [0x13, 0x00, 0x00, 0x00, 0x10])
    getReg t .ip = 0x10 := by decide
theorem test_jmp_J9 : let t := one (vm [0x13, 0xFF, 0xFF, 0xFF, 0xF0])
    getReg t .ip = 0xFFFFFFF0 ∧ FaultsWith t (.progOutOfBounds 0xFFFFFFF0 1) := by decide

/-- IP after a conditional jump at 0 on R1 to 0x20 (J10 to J14). -/
def jumpIp (op : Byte) (a b : Word) : Word :=
  getReg (one (setR .acc a (setR .r1 b (vm [op, 0x01, 0x00, 0x00, 0x00, 0x20])))) .ip

/-- The rows J10 to J14. -/
def jumpRows (op : Byte) : List Word :=
  [jumpIp op 3 5, jumpIp op 5 5, jumpIp op 5 3, jumpIp op 0xFFFFFFFF 1, jumpIp op 0 0xFFFFFFFF]

theorem test_jmpNe_J10_to_J14 : jumpRows 0x14 = [0x20, 6, 0x20, 0x20, 0x20] := by decide
theorem test_jmpEq_J10_to_J14 : jumpRows 0x15 = [6, 0x20, 6, 6, 6] := by decide
theorem test_jmpGt_J10_to_J14 : jumpRows 0x16 = [6, 6, 0x20, 0x20, 6] := by decide
theorem test_jmpLt_J10_to_J14 : jumpRows 0x17 = [0x20, 6, 6, 6, 0x20] := by decide
theorem test_jmpGe_J10_to_J14 : jumpRows 0x18 = [6, 0x20, 0x20, 0x20, 6] := by decide
theorem test_jmpLe_J10_to_J14 : jumpRows 0x19 = [0x20, 0x20, 6, 6, 0x20] := by decide
theorem test_jmpGt_ip_J6 : let t := one (setR .acc 7 (vm [0x16, 0x05, 0x00, 0x00, 0x00, 0x20]))
    getReg t .ip = 0x20 := by decide
theorem test_jmpLt_ip_J7 : let t := one (setR .acc 5 (vm [0x17, 0x05, 0x00, 0x00, 0x00, 0x20]))
    getReg t .ip = 0x20 := by decide

/-- The state before K1. -/
def beforeK1 : State :=
  setR .r0 1 (setR .r1 2 (setR .r2 3 (setR .r3 4 (setR .acc 5 (vmAt 0x10 [0x1A, 0x00, 0x00, 0x00,
    0x40])))))

theorem test_call_K1 : let t := one beforeK1
    getReg t .ip = 0x40 ∧ getReg t .sp = 0xFFE4 ∧ getReg t .fp = 0xFFE4 ∧ getReg t .r0 = 1 ∧
      t.mem.readBytes 0xFFE4 28 = [0, 1, 0, 0, 0, 0, 0, 5, 0, 0, 0, 4] ++
        [0, 0, 0, 3, 0, 0, 0, 2, 0, 0, 0, 1, 0, 0, 0, 0x15] := by decide
theorem test_call_K4 :
    FaultsWith (setR .sp 0x18 (setR .fp 0x18 (vm [0x1A, 0x00, 0x00, 0x00, 0x40])))
      (.memOutOfBounds 0xFFFFFFFC 4) := by decide

/-- K2: the callee has pushed a word and changed R0. -/
theorem test_ret_K2 :
    let s := setR .r0 0x63 (setR .sp 0xFFE0
      { (one beforeK1) with prog := List.replicate 0x40 0 ++ [0x1B] })
    let t := one s
    getReg t .r0 = 1 ∧ getReg t .r1 = 2 ∧ getReg t .r2 = 3 ∧ getReg t .r3 = 4 ∧ getReg t .acc = 5 ∧
      getReg t .fp = 0x10000 ∧ getReg t .sp = 0x10000 ∧ getReg t .ip = 0x15 := by decide
theorem test_ret_K6 :
    FaultsWith (setR .fp 0xFFE8 (setR .sp 0x100 (vm [0x1B]))) (.memOutOfBounds 0x10000 4) := by decide

/-! ### Fetch, decode and fault vectors -/

theorem test_fault_X1 : FaultsWith (vm []) (.progOutOfBounds 0 1) := by decide
theorem test_fault_X3 : FaultsWith (vm [0x1C]) (.unknownOpcode 0 0x1C) := by decide
theorem test_fault_X4 : FaultsWith (vm [0x04, 0x00, 0x00]) (.progOutOfBounds 1 4) := by decide
theorem test_fault_X5 : FaultsWith (vm [0x04, 0x00, 0x00, 0x00, 0x01]) (.progOutOfBounds 5 1) := by decide
theorem test_fault_X6 : FaultsWith (vm [0x05, 0x09]) (.progOutOfBounds 2 1) := by decide
theorem test_fault_X7 : FaultsWith (vm [0x05, 0x09, 0x0A]) (.regOutOfBounds 1 9) := by decide
theorem test_fault_X8 : FaultsWith (vm [0x06, 0x00, 0x01, 0x00, 0x00,
    0x09]) (.regOutOfBounds 5 9) := by decide
theorem test_fault_X9 : FaultsWith (vm [0x0E, 0x01, 0x02]) (.progOutOfBounds 3 1) := by decide
theorem test_fault_X10 : FaultsWith (vm [0x07, 0x00, 0x00, 0x00, 0x01, 0x00,
    0x00]) (.progOutOfBounds 5 4) := by decide
theorem test_fault_X11 : FaultsWith (vm [0x19, 0x01, 0x00, 0x00,
    0x00]) (.progOutOfBounds 2 4) := by decide
theorem test_fault_AR21 : FaultsWith (vm [0x0E, 0x00, 0x09, 0x0A]) (.regOutOfBounds 2 9) := by decide
theorem test_fault_J8 : FaultsWith (vm [0x15, 0x08, 0x00, 0x00, 0x00,
    0x20]) (.regOutOfBounds 1 8) := by decide

/-! ### Memory, reset, host, run loops, assembler -/

theorem test_reset_H1 : getReg State.reset .sp = 0x10000 ∧ getReg State.reset .fp = 0x10000 ∧
    State.reset.run = .halted ∧ State.reset.mem.wf = true ∧ State.reset.memSize = 0x10000 := by decide
theorem test_step_halted_H2 : one State.reset = State.reset := by decide
theorem test_start_H3 : start 0x10 .debug State.reset =
    { State.reset with
      regs := State.reset.regs.set .ip 0x10, modified := State.reset.modified.set .ip true,
      run := .running, mode := .debug } := by decide
/-- Writing back the value an unlisted byte reads as removes the entry: equal memories are equal data. -/
theorem test_memory_canonical :
    (setM 0x200 [0] (setM 0x200 [7] State.reset)).mem = ([] : Memory) ∧
      setM 0x10 [1] (setM 0x20 [2] State.reset) = setM 0x20 [2] (setM 0x10 [1] State.reset) := by decide
/-- Program P1, in the words of Scenario A. -/
theorem test_assemble_P1 :
    assemble "mov $0x01 r1\nloop:\ninc r1\nmov $0x05 acc\njne r1 loop\nhalt\n".toList =
      .ok ([0x04, 0x00, 0x00, 0x00, 0x01, 0x01, 0x0F, 0x01, 0x04, 0x00, 0x00, 0x00, 0x05, 0x04] ++
        [0x14, 0x01, 0x00, 0x00, 0x00, 0x06, 0x00]) := by decide
theorem test_assemble_T1 :
    assemble "jmp end\ninc r0\nend:\nhalt".toList = assemble "jmp $7\ninc r0\nhalt".toList := by decide
theorem test_assemble_T8_T9 :
    assemble "jmp nowhere\nhalt".toList = .error .undefinedLabel ∧
      assemble "mov $1 r0\nfrob r0\nhalt".toList = .error .unknownMnemonic := by decide
theorem test_assemble_rejects :
    assemble "mov $0x01 r9".toList = .error .unknownRegister ∧
      assemble "push".toList = .error .wrongOperands ∧
      assemble "mov $012 r0".toList = .error .malformedNumber ∧
      assemble "mov $0x1FFFFFFFF r0".toList = .error .malformedNumber ∧
      assemble "loop:\nloop:".toList = .error .duplicateLabel := by decide
/-- The bits of the last step only, in DEBUG mode (H8); a faulting step leaves none (H9). -/
theorem test_debug_H8_H9 :
    (resultOf (debugStep (vm [0x0F, 0x01]))).modified = (noneModified.set .r1 true).set .ip true ∧
      (resultOf (debugStep (vm [0x1B]))).modified = noneModified := by decide
/-- H6: two runs in one session. -/
theorem test_run_twice_H6 :
    let first := resultOf (run 9 0 .normal { State.reset with prog := [0x0F, 0x00, 0x00] })
    let second := resultOf (run 9 0 .debug first)
    getReg first .r0 = 1 ∧ first.run = .halted ∧ first.fault = none ∧ getReg second .r0 = 2 ∧
      getReg second .ip = 3 := by decide

/-! ### The hypotheses of the obligations are met, clause by clause, at the ends of their ranges -/

/-- A state with SP given. -/
def atSp (sp : Word) : State := setR .sp sp (vm [])

theorem witness_register_ids : 7 < (0x08 : Byte).toNat ∧ 7 < (0xFF : Byte).toNat := by decide

/-- PushLitStoresBelowSp and PushRegStoresBelowSp: the lowest and the highest push that fits,
    and the nearest
that do not. -/
theorem witness_push :
    (getReg (atSp 4) .sp - 4).toNat + 4 ≤ (atSp 4).memSize ∧
    (getReg (atSp 0x10000) .sp - 4).toNat + 4 ≤ (atSp 0x10000).memSize ∧
    (atSp 0x10001).memSize < (getReg (atSp 0x10001) .sp - 4).toNat + 4 ∧
    (atSp 3).memSize < (getReg (atSp 3) .sp - 4).toNat + 4 ∧
    (atSp 3).memSize < 2 ^ 32 ∧ (getReg (atSp 3) .sp).toNat < 4 ∧
      (getReg (atSp 0) .sp).toNat < 4 := by decide

theorem witness_PopRegLoadsFromSp :
    (getReg (atSp 0) .sp).toNat + 4 ≤ (atSp 0).memSize ∧
    (getReg (atSp 0xFFFC) .sp).toNat + 4 ≤ (atSp 0xFFFC).memSize ∧
    (atSp 0xFFFD).memSize < (getReg (atSp 0xFFFD) .sp).toNat + 4 ∧
    (atSp 0xFFFFFFFF).memSize < (getReg (atSp 0xFFFFFFFF) .sp).toNat + 4 := by decide

/-- The loads, the stores, IncMemAddsOne and DecMemSubtractsOne. -/
theorem witness_memory_operand :
    (0 : Word).toNat + 4 ≤ (vm []).memSize ∧ (0xFFFC : Word).toNat + 4 ≤ (vm []).memSize ∧
    (vm []).memSize < (0xFFFD : Word).toNat + 4 ∧
      (vm []).memSize < (0xFFFFFFFF : Word).toNat + 4 := by decide

/-- MovMemMemCopiesWholeWord: both fit, the source does not, only the destination does not. -/
theorem witness_MovMemMemCopiesWholeWord :
    ((0x10 : Word).toNat + 4 ≤ (vm []).memSize ∧ (0xFFFC : Word).toNat + 4 ≤ (vm []).memSize) ∧
    (vm []).memSize < (0xFFFD : Word).toNat + 4 ∧
    ((0xFFFC : Word).toNat + 4 ≤ (vm []).memSize ∧
      (vm []).memSize < (0xFFFD : Word).toNat + 4) := by decide

/-- CallPushesFrame: the lowest and the highest frame that fits; SP above memory; SP just too low. -/
theorem witness_CallPushesFrame :
    (28 ≤ (getReg (atSp 28) .sp).toNat ∧ (getReg (atSp 28) .sp).toNat ≤ (atSp 28).memSize) ∧
    (28 ≤ (getReg (atSp 0x10000) .sp).toNat ∧
      (getReg (atSp 0x10000) .sp).toNat ≤ (atSp 0x10000).memSize) ∧
    ((atSp 0x10001).memSize < (getReg (atSp 0x10001) .sp).toNat ∧ (atSp 0x10001).memSize ≤ 2 ^ 32) ∧
    ((getReg (atSp 27) .sp).toNat < 28 ∧ (getReg (atSp 27) .sp).toNat ≤ (atSp 27).memSize ∧
      (atSp 27).memSize < 2 ^ 32) ∧
    ((getReg (atSp 0) .sp).toNat < 28 ∧ (getReg (atSp 0) .sp).toNat ≤ (atSp 0).memSize) := by decide

/-- The jumps and CALL: a label with the address of the target. -/
theorem witness_target_label :
    resolveTarget [(['x'], 0xFFFFFFFF)] (.label ['x']) = .ok (0xFFFFFFFF : Word) := by decide

/-- A state with FP given. -/
def atFp (fp : Word) : State := setR .fp fp (vm [])

/-- ReturnPopsFrame: the lowest and the highest frame that fits; the first pop and the last pop the one that
does not fit. -/
theorem witness_ReturnPopsFrame :
    ((getReg (atFp 0) .fp).toNat + 28 ≤ (atFp 0).memSize ∧ (atFp 0).memSize ≤ 2 ^ 32) ∧
    (getReg (atFp 0xFFE4) .fp).toNat + 28 ≤ (atFp 0xFFE4).memSize ∧
    ((atFp 0xFFFFFFFF).memSize < 2 ^ 32 ∧ (0 < 7 ∧ (0 = 0 ∨ (getReg (atFp 0xFFFFFFFF) .fp).toNat + 4 * 0 ≤
      (atFp 0xFFFFFFFF).memSize) ∧
      (atFp 0xFFFFFFFF).memSize < (getReg (atFp 0xFFFFFFFF) .fp).toNat + 4 * 0 + 4)) ∧
    ((atFp 0xFFE8).memSize < 2 ^ 32 ∧ (6 < 7 ∧ (6 = 0 ∨ (getReg (atFp 0xFFE8) .fp).toNat + 4 * 6 ≤
      (atFp 0xFFE8).memSize) ∧
      (atFp 0xFFE8).memSize < (getReg (atFp 0xFFE8) .fp).toNat + 4 * 6 + 4)) := by decide

theorem witness_StepRunsDecodedInstruction :
    (vm [0x0F, 0x01]).run = .running ∧ (Instr.incReg .r1).wellFormed = true ∧
    decode (vm [0x0F, 0x01]).prog (getReg (vm [0x0F, 0x01]) .ip).toNat = .ok (.incReg .r1) := by decide

theorem witness_HaltedStepChangesNothing : State.reset.run = .halted := by decide

theorem witness_FaultsArePrecise : (vm [0x1C]).run = .running ∧ (vm [0x1C]).fault = none ∧
    step (vm [0x1C]) = .next (one (vm [0x1C])) ∧
    (one (vm [0x1C])).fault = some (.unknownOpcode 0 0x1C) :=
  ⟨by decide, by decide, eq_next_resultOf (by decide), by decide⟩

theorem witness_RunEndsOnlyByHaltOrFault : (vm [0x00]).run = .running ∧ (vm [0x00]).fault = none ∧
    step (vm [0x00]) = .next (one (vm [0x00])) :=
  ⟨by decide, by decide, eq_next_resultOf (by decide)⟩

/-- BadFetchFaults: an id above 7, an operand cut off, IP at the end of the image, IP at the last address,
    and the first byte that is no opcode. -/
theorem witness_BadFetchFaults :
    decode (vm [0x0F, 0x08]).prog (getReg (vm [0x0F, 0x08]) .ip).toNat = .error (.regOutOfBounds 1 0x08) ∧
    decode (vm [0x13, 0, 0]).prog (getReg (vm [0x13, 0, 0]) .ip).toNat = .error (.progOutOfBounds 1 4) ∧
    (vm [0x0F, 0x08]).run = .running ∧ (vm [0x13, 0, 0]).run = .running ∧ (vm [0x1C]).run = .running ∧
    (vm [0x1C]).prog[(getReg (vm [0x1C]) .ip).toNat]? = some 0x1C ∧ 0x1B < (0x1C : Byte).toNat ∧
    (vm []).prog.length ≤ (getReg (vm []) .ip).toNat ∧
    (vm []).prog.length ≤ (getReg (setR .ip 0xFFFFFFFF (vm [])) .ip).toNat := by decide

theorem witness_CompletedStepAdvancesIp : (vm [0x0F, 0x01]).run = .running ∧
    decode (vm [0x0F, 0x01]).prog (getReg (vm [0x0F, 0x01]) .ip).toNat = .ok (.incReg .r1) ∧
    step (vm [0x0F, 0x01]) = .next (one (vm [0x0F, 0x01])) ∧ (one (vm [0x0F, 0x01])).fault = none ∧
    .ip ∉ writtenRegs (.incReg .r1) :=
  ⟨by decide, by decide, eq_next_resultOf (by decide), by decide, by decide⟩

theorem witness_OnlyNamedRegistersChange :
    exec (.incReg .r1) (vm []) = .next (resultOf (exec (.incReg .r1) (vm []))) ∧
    Reg.r2 ≠ .ip ∧ Reg.r2 ∉ writtenRegs (.incReg .r1) :=
  ⟨eq_next_resultOf (by decide), by decide, by decide⟩

theorem witness_OnlyStoresChangeMemory :
    exec (.popReg .r1) (atSp 0xFFFC) = .next (resultOf (exec (.popReg .r1) (atSp 0xFFFC))) ∧
    mayStore (.popReg .r1) = false :=
  ⟨eq_next_resultOf (by decide), by decide⟩

theorem witness_StepsKeepImage : Host.Core.run Sys2Proof.core 2 (vm [0x0F, 0x01, 0x00]) =
    .next (resultOf (Host.Core.run Sys2Proof.core 2 (vm [0x0F, 0x01, 0x00]))) :=
  eq_next_resultOf (by decide)

theorem witness_ModifiedBitsHaveNoInfluence :
    (vm [0x0F, 0x01]).forgetModified = (resetModified (vm [0x0F, 0x01])).forgetModified ∧
    vm [0x0F, 0x01] ≠ resetModified (vm [0x0F, 0x01]) := by decide

theorem witness_ModeHasNoInfluence : step (vm [0x0F, 0x01]) = .next (one (vm [0x0F, 0x01])) :=
  eq_next_resultOf (by decide)

/-- A running state with a byte in memory, and a halted one with a fault, both with the invariant. -/
theorem witness_StepKeepsInvariant :
    Inv (setM 0x200 [7] (vm [0x0F, 0x01])) ∧
    step (setM 0x200 [7] (vm [0x0F, 0x01])) = .next (one (setM 0x200 [7] (vm [0x0F, 0x01]))) ∧
    Inv { (vm [0x1C]) with run := .halted, fault := some (.unknownOpcode 0 0x1C) } :=
  ⟨⟨⟨by decide, by decide⟩, ⟨by decide, by decide⟩, by decide, by intro f hf; cases hf⟩,
    eq_next_resultOf (by decide),
    ⟨⟨by decide, by decide⟩, ⟨by decide, by decide⟩, by decide, by
      intro f hf; cases hf; exact ⟨by decide, by decide, by decide⟩⟩⟩

theorem witness_ResetMeetsInvariant :
    paramsOk (Config.Params.ofMemSize 4294967296) = true ∧
      paramsOk (Config.Params.ofMemSize 0) = true := by decide

theorem witness_DecodedBytesAreEncoding : decode [0x00, 0x0F, 0x01] 1 = .ok (.incReg .r1) := by decide

/-- TruncatedInstructionFaults: the last byte missing, all operands missing, and a word cut after two bytes. -/
theorem witness_TruncatedInstructionFaults :
    (let prog : List Byte := [0x04, 0, 0, 0, 1]
     prog[0]? = some (opcodeByte .movLitReg) ∧ prog.length < 0 + Opcode.movLitReg.len ∧
        (5, 1) ∈ operandFetches .movLitReg ∧ 0 + 5 ≤ prog.length ∧ prog.length < 0 + 5 + 1) ∧
    (let prog : List Byte := [0x02]
     prog[0]? = some (opcodeByte .pushReg) ∧ prog.length < 0 + Opcode.pushReg.len ∧
        (1, 1) ∈ operandFetches .pushReg ∧ 0 + 1 ≤ prog.length ∧ prog.length < 0 + 1 + 1) ∧
    (let prog : List Byte := [0x04, 0, 0]
     prog[0]? = some (opcodeByte .movLitReg) ∧ prog.length < 0 + Opcode.movLitReg.len ∧
        (1, 4) ∈ operandFetches .movLitReg ∧ 0 + 1 ≤ prog.length ∧ prog.length < 0 + 1 + 4) := by
  decide

/-- FirstBadRegisterIdReported: the second of two ids, the first being the highest good one. -/
theorem witness_FirstBadRegisterIdReported :
    let prog : List Byte := [0x05, 0x07, 0x08]
    prog[0]? = some (opcodeByte .movRegReg) ∧ 0 + Opcode.movRegReg.len ≤ prog.length ∧
    2 ∈ regOffsets .movRegReg ∧ prog[0 + 2]? = some 0x08 ∧ 7 < (0x08 : Byte).toNat ∧
    ∀ j ∈ regOffsets .movRegReg, j < 2 → ∀ b : Byte, prog[0 + j]? = some b → b.toNat ≤ 7 := by
  refine ⟨by decide, by decide, by decide, by decide, by decide, ?_⟩
  intro j hj hlt b hb
  have h1 : j = 1 := by
    have hm : regOffsets .movRegReg = [1, 2] := rfl
    rw [hm] at hj
    simp only [List.mem_cons, List.not_mem_nil, or_false] at hj
    omega
  subst h1
  cases hb
  decide

theorem witness_MemReadIsBigEndian : 0xFFFC + 4 ≤ (vm []).memSize ∧
    (vm []).memSize < 0xFFFD + 4 := by decide

theorem witness_MemWriteStoresLowBits :
    (0xFFFF + 1 ≤ (vm []).memSize ∧ (0 : Nat) < 1 ∧ (0x200 < 0xFFFF ∨ 0xFFFF + 1 ≤ 0x200) ∧
      (vm []).mem.wf = true) ∧
    (vm []).memSize < 0xFFFF + 2 := by decide

theorem witness_PushThenPop :
    push (atSp 4) 7 = .ok (setReg (setM 0 [0, 0, 0, 7] (atSp 4)) .sp 0) := by decide

/-- PushesThenPopsAreLifo, with SP as low as two pushes allow. -/
theorem witness_PushesThenPopsAreLifo :
    (∀ i ∈ [Instr.pushLit 10, .pushReg .r1], isPush i = true) ∧
    [Reg.r0, .r2].length = [Instr.pushLit 10, .pushReg .r1].length ∧
    Reg.sp ∉ [Reg.r0, .r2] ∧ Reg.ip ∉ [Reg.r0, .r2] ∧
    4 * [Instr.pushLit 10, .pushReg .r1].length ≤ (getReg (atSp 8) .sp).toNat ∧
    (getReg (atSp 8) .sp).toNat ≤ (atSp 8).memSize ∧
    [Reg.r0, .r2][1]? = some .r2 ∧ Reg.r2 ∉ [Reg.r0, .r2].drop 2 := by decide

/-- The state K1 leaves. -/
def afterK1 : State := resultOf (exec (.call 0x40) beforeK1)

theorem setR_mem (r : Reg) (v : Word) (s : State) : (setR r v s).mem = s.mem := rfl

/-- The callee has moved SP and changed R0. -/
def calleeK1 : State := setR .r0 0x63 (setR .sp 0xFFE0 afterK1)

theorem witness_ReturnUndoesCall :
    28 ≤ (getReg beforeK1 .sp).toNat ∧ (getReg beforeK1 .sp).toNat ≤ beforeK1.memSize ∧
    exec (.call 0x40) beforeK1 = .next afterK1 ∧ calleeK1.memSize = beforeK1.memSize ∧
    getReg calleeK1 .fp = getReg afterK1 .fp ∧
    ∀ a, (getReg beforeK1 .sp).toNat - 28 ≤ a → a < (getReg beforeK1 .sp).toNat →
      calleeK1.mem.readByte a = afterK1.mem.readByte a := by
  have hm : calleeK1.mem = afterK1.mem := by rw [calleeK1, setR_mem, setR_mem]
  have hn : isNext (exec (.call 0x40) beforeK1) = true := by decide
  refine ⟨by decide, by decide, ?_, by decide, by decide, fun _ _ _ => by rw [hm]⟩
  unfold afterK1
  exact eq_next_resultOf hn

/-- HostReadsAndWrites. The image that is too long has one byte more than fits. -/
theorem witness_HostReadsAndWrites : (vm []).run = .running ∧ State.reset.run = .halted ∧
    ([] : List Byte).length ≤ 2 ^ 32 ∧ 2 ^ 32 < (List.replicate (2 ^ 32 + 1) (0 : Byte)).length ∧
    0xFFFF + 1 ≤ State.reset.memSize ∧ State.reset.memSize < 0xFFFF + 2 := by
  refine ⟨by decide, by decide, by decide, ?_, by decide, by decide⟩
  rw [List.length_replicate]
  decide

/-- R15: the host reads memory while the machine is Running between steps (values of R72's example). -/
theorem test_host_read_running :
    (match hostRead (setM 0x1234 [0x00, 0x48, 0x65, 0x79] (vm [])) 0x1234 4 with
      | .next v => v
      | _ => 0) = 0x00486579 ∧
    (match hostReadBytes (setM 0x1234 [0x00, 0x48, 0x65, 0x79] (vm [])) 0x1235 2 with
      | .next bytes => bytes
      | _ => []) = [0x48, 0x65] := by decide

/-- R292: the loop emits one snapshot a step, HALT's included, with that step's modified bits (43_arith.md
R191: inc r1). -/
theorem test_debug_snapshots :
    (match debugLoop 9 { vm [0x0F, 0x01, 0x00] with memSize := 2 } with
      | .next (_, snaps) => snaps.map fun p => (p.regs.r1, p.modified.r1, p.mem, p.run)
      | _ => []) =
      [(1, true, [0, 0], .running), (1, false, [0, 0], .halted)] := by decide

/-- The items of T1: a jump forward to a label. -/
def itemsT1 : List Item :=
  [.instr (.jmp (.label ['e'])), .instr (.plain (.incReg .r0)), .label ['e'], .instr (.plain .halt)]

/-- LabelResolutionIsTransparent and AssembledImageDecodesBack; the label stands after two instructions. -/
theorem witness_assembles : assembleItems itemsT1 = .ok [0x13, 0, 0, 0, 7, 0x0F, 0, 0] ∧
    itemsT1 = itemsT1.take 2 ++ .label ['e'] :: itemsT1.drop 3 := by decide

/-- BadLineMakesNoProgram: a line with an unknown mnemonic, and a target without a definition. -/
theorem witness_BadLineMakesNoProgram :
    (tokensOf "frob r0".toList = "frob".toList :: ["r0".toList] ∧
      itemOf "frob".toList ["r0".toList] = .error .unknownMnemonic) ∧
    (Item.instr (.jmp (.label ['x'])) ∈ [Item.instr (.jmp (.label ['x']))] ∧
      Item.label ['x'] ∉ [Item.instr (.jmp (.label ['x']))]) := by decide

end Sys2Proof.Tests
end

section
/-! The host's accesses between steps (00_scope.md R15; 70_reset_and_hazards.md R287, R288): what a range of
memory holds byte by byte, then each host operation where RUN or the bounds check decides its outcome. -/

namespace Sys2Proof.Machine

/-! ### A range of memory, byte by byte (20_memory.md R54, R56) -/

theorem Memory.readBytes_eq_map (m : Memory) (a n : Nat) :
    m.readBytes a n = (List.range n).map fun k => m.readByte (a + k) := by
  refine List.ext_getElem? fun k => ?_
  by_cases hk : k < n
  · rw [m.readBytes_getElem? a n k hk]
    simp [hk]
  · simp [Nat.le_of_not_lt hk]

theorem Memory.readByte_writeBytes_inside (m : Memory) (a : Nat) {bs : List Byte} {k : Nat} {b : Byte}
    (h : bs[k]? = some b) : (m.writeBytes a bs).readByte (a + k) = b := by
  obtain ⟨hk, -⟩ := List.getElem?_eq_some_iff.1 h
  have hread := (m.writeBytes a bs).readBytes_getElem? a bs.length k hk
  rw [m.readBytes_writeBytes_same a bs, h] at hread
  exact (Option.some.inj hread).symm

/-- Byte `k` of a stored number is the one that stands `n - 1 - k` bytes up. -/
theorem Memory.readByte_writeBytes_beBytes (m : Memory) (a v : Nat) {n k : Nat} (hk : k < n) :
    (m.writeBytes a (beBytes n v)).readByte (a + k) = BitVec.ofNat 8 (v / 2 ^ (8 * (n - 1 - k))) := by
  have hpow : 2 ^ (8 * (n - 1 - k)) = 256 ^ (n - 1 - k) := pow_mul 2 8 _
  rw [hpow]
  exact m.readByte_writeBytes_inside a (beBytes_getElem? n v k hk)

/-! ### The operations that RUN guards (R287, R288) -/

/-- The largest image, as the spec writes it (00_scope.md R9). -/
theorem maxSize_eq_two_pow : Config.maxSize = 2 ^ 32 := rfl

theorem load_running {s : State} (h : s.run = .running) (bytes : List Byte) :
    load bytes s = .refused .hostWhileRunning := whileHalted_running h _

theorem hostWrite_running {s : State} (h : s.run = .running) (a n v : Nat) :
    hostWrite a n v s = .refused .hostWhileRunning := whileHalted_running h _

theorem hostSetReg_running {s : State} (h : s.run = .running) (r : Reg) (w : Word) :
    hostSetReg r w s = .refused .hostWhileRunning := whileHalted_running h _

theorem hostSetReg_halted {s : State} (h : s.run = .halted) (r : Reg) (w : Word) :
    hostSetReg r w s = .next (setReg s r w) := whileHalted_halted h _

/-- A write that fits, at a halted machine: only memory changes, and there only the `n` bytes (R54). -/
theorem hostWrite_fits {s : State} (h : s.run = .halted) {a n : Nat} (hfit : a + n ≤ s.memSize) (v : Nat) :
    ∃ m : Memory, hostWrite a n v s = .next { s with mem := m } ∧
      (∀ k, k < n → m.readByte (a + k) = BitVec.ofNat 8 (v / 2 ^ (8 * (n - 1 - k)))) ∧
      ∀ b, b < a ∨ a + n ≤ b → m.readByte b = s.mem.readByte b := by
  refine ⟨s.mem.writeBytes a (beBytes n v), ?_, ?_, ?_⟩
  · rw [hostWrite_eq h, if_pos hfit]
  · exact fun k hk => s.mem.readByte_writeBytes_beBytes a v hk
  · exact fun b hb => s.mem.readByte_writeBytes_outside a (beBytes n v) (by rwa [beBytes_length])

/-- Settles O57: the bounds check decides a read; RUN and then the bounds check decide the rest. -/
theorem hostReadsAndWrites : Obligations.HostReadsAndWrites := by
  unfold Obligations.HostReadsAndWrites
  intro s a n v r w bytes
  refine ⟨fun hfit => ?fits, fun hout => ?overrun, fun hrun => ?running, fun hhalt => ?halted⟩
  case fits =>
    rw [hostReadBytes_eq, hostRead_eq, if_pos hfit, if_pos hfit, Memory.readBytes_eq_map]
    exact ⟨rfl, rfl⟩
  case overrun =>
    have hnot : ¬ a + n ≤ s.memSize := Nat.not_le.2 hout
    rw [hostReadBytes_eq, hostRead_eq, if_neg hnot, if_neg hnot]
    exact ⟨rfl, rfl⟩
  case running =>
    exact ⟨load_running hrun bytes, hostWrite_running hrun a n v, hostSetReg_running hrun r w⟩
  case halted =>
    refine ⟨fun hlen => ?_, fun hlong => ?_, hostSetReg_halted hhalt r w,
      fun hfit => hostWrite_fits hhalt hfit v, fun hout => ?_⟩
    · rw [load_eq hhalt, maxSize_eq_two_pow, if_pos hlen]
    · rw [load_eq hhalt, maxSize_eq_two_pow, if_neg (Nat.not_le.2 hlong)]
    · rw [hostWrite_eq hhalt, if_neg (Nat.not_le.2 hout)]

end Sys2Proof.Machine
end

section
/-! The invariant of the machine (10_state.md R34, R38; 60_exceptions.md R246 to R249). Memory stays in its size
and form because every store checks its bounds; a fault record is true because every fetch and every access
reports the range it asked for. Reset meets the invariant and every step keeps it. -/

namespace Sys2Proof.Machine

/-! ### Stores keep memory canonical and inside its size (10_state.md R38; 20_memory.md R57) -/

theorem MemoryFits.congr {s t : State} (h : MemoryFits s) (hmem : t.mem = s.mem)
    (hsize : t.memSize = s.memSize) : MemoryFits t := by
  rw [MemoryFits, hmem, hsize]
  exact h

theorem MemoryFits.writeBytes {s : State} (h : MemoryFits s) {a : Nat} {bs : List Byte}
    (hfit : a + bs.length ≤ s.memSize) : MemoryFits { s with mem := s.mem.writeBytes a bs } := by
  obtain ⟨hwf, hin⟩ := h
  refine ⟨Memory.wf_writeBytes a bs hwf, fun c hc => ?_⟩
  rcases Memory.mem_writeBytes hc with hnew | hold
  · exact lt_of_lt_of_le hnew.2 hfit
  · exact hin c hold

theorem memWrite32_keeps_memoryFits {s t : State} {a : Nat} {v : Word} (hs : MemoryFits s)
    (h : memWrite32 s a v = .ok t) : MemoryFits t := by
  rw [memWrite32_eq] at h
  split at h
  next hfit => cases h; exact hs.writeBytes (by rwa [wordBytes_length])
  next => cases h

theorem push_keeps_memoryFits {s t : State} {v : Word} (hs : MemoryFits s) (h : push s v = .ok t) :
    MemoryFits t := by
  obtain ⟨u, hu, h⟩ := except_bind_eq_ok.1 h
  cases h
  exact (memWrite32_keeps_memoryFits hs hu).congr rfl rfl

theorem pushAll_keeps_memoryFits {s t : State} {vs : List Word} (hs : MemoryFits s)
    (h : pushAll s vs = .ok t) : MemoryFits t := by
  induction vs generalizing s with
  | nil => cases h; exact hs
  | cons v vs ih =>
    obtain ⟨u, hu, h⟩ := except_bind_eq_ok.1 h
    exact ih (push_keeps_memoryFits hs hu) h

/-- The effects that store do it through a checked write or a push; every other one leaves memory as it is. -/
theorem effectOf_keeps_memoryFits {i : Instr} {s t : State} (hs : MemoryFits s)
    (h : effectOf i s = .ok t) : MemoryFits t := by
  obtain ⟨hsize, -, -, -, -, hmem, -⟩ := effectOf_next h
  cases i
  case movLitMem | movRegMem => exact memWrite32_keeps_memoryFits hs h
  case movMemMem | incMem | decMem =>
    obtain ⟨v, -, h⟩ := except_bind_eq_ok.1 h
    exact memWrite32_keeps_memoryFits hs h
  case pushLit | pushReg => exact push_keeps_memoryFits hs h
  case call target =>
    obtain ⟨u, hu, h⟩ := except_bind_eq_ok.1 h
    cases h
    exact (pushAll_keeps_memoryFits hs hu).congr rfl rfl
  all_goals exact hs.congr (hmem rfl) hsize

/-! ### What a fault record says is true (60_exceptions.md R246 to R249) -/

/-- A fault record speaks of IP, the image and the size of memory, and taking the fault changes none of them. -/
theorem faultTrue_raiseFault {s : State} {f g : FaultCause} :
    FaultTrue (raiseFault s f) g ↔ FaultTrue s g := by
  cases g <;> rfl

/-- Whatever fault a computation ends in is true of the state. -/
def FaultsTrue {α : Type} (s : State) (x : Except FaultCause α) : Prop :=
  ∀ f, x = .error f → FaultTrue s f

theorem FaultsTrue.ok {α : Type} {s : State} (a : α) : FaultsTrue s (.ok a) :=
  fun _ h => nomatch h

theorem FaultsTrue.bind {α β : Type} {s : State} {x : Except FaultCause α}
    {k : α → Except FaultCause β} (hx : FaultsTrue s x) (hk : ∀ a, x = .ok a → FaultsTrue s (k a)) :
    FaultsTrue s (x >>= k) := by
  intro f h
  rcases except_bind_eq_error.1 h with h | ⟨a, ha, h⟩
  · exact hx f h
  · exact hk a ha f h

/-- No operand begins more than five bytes past the opcode byte (30_encoding.md R82). -/
theorem fetchByte_faultsTrue (s : State) {k : Nat} (hk : k ≤ 5) :
    FaultsTrue s (fetchByte s.prog (getReg s .ip).toNat k) := by
  intro f h
  obtain ⟨hout, rfl⟩ := fetchByte_eq_error.1 h
  exact ⟨by omega, .inl rfl, by omega, by omega⟩

theorem fetchWord_faultsTrue (s : State) {k : Nat} (hk : k ≤ 5) :
    FaultsTrue s (fetchWord s.prog (getReg s .ip).toNat k) := by
  intro f h
  obtain ⟨hout, rfl⟩ := fetchWord_eq_error.1 h
  exact ⟨hout, .inr rfl, by omega, by omega⟩

/-- A rejected register id is the byte that was fetched for that operand (R249). -/
theorem checkReg_faultsTrue {s : State} {k : Nat} {b : Byte} (h0 : 0 < k) (hk : k ≤ 5)
    (hb : fetchByte s.prog (getReg s .ip).toNat k = .ok b) :
    FaultsTrue s (checkReg (getReg s .ip).toNat k b) := by
  intro f h
  obtain ⟨hid, rfl⟩ := checkReg_eq_error.1 h
  exact ⟨fetchByte_eq_ok.1 hb, hid, by omega, by omega⟩

/-! One lemma per shape of operands: the fetches of the shape, then its register checks. -/

theorem decodeR_faultsTrue (s : State) (mk : Reg → Instr) :
    FaultsTrue s (decodeR mk s.prog (getReg s .ip).toNat) :=
  (fetchByte_faultsTrue s (by decide)).bind fun _ ha =>
  (checkReg_faultsTrue (by decide) (by decide) ha).bind fun _ _ => .ok _

theorem decodeRR_faultsTrue (s : State) (mk : Reg → Reg → Instr) :
    FaultsTrue s (decodeRR mk s.prog (getReg s .ip).toNat) :=
  (fetchByte_faultsTrue s (by decide)).bind fun _ ha =>
  (fetchByte_faultsTrue s (by decide)).bind fun _ hb =>
  (checkReg_faultsTrue (by decide) (by decide) ha).bind fun _ _ =>
  (checkReg_faultsTrue (by decide) (by decide) hb).bind fun _ _ => .ok _

theorem decodeRRR_faultsTrue (s : State) (mk : Reg → Reg → Reg → Instr) :
    FaultsTrue s (decodeRRR mk s.prog (getReg s .ip).toNat) :=
  (fetchByte_faultsTrue s (by decide)).bind fun _ ha =>
  (fetchByte_faultsTrue s (by decide)).bind fun _ hb =>
  (fetchByte_faultsTrue s (by decide)).bind fun _ hc =>
  (checkReg_faultsTrue (by decide) (by decide) ha).bind fun _ _ =>
  (checkReg_faultsTrue (by decide) (by decide) hb).bind fun _ _ =>
  (checkReg_faultsTrue (by decide) (by decide) hc).bind fun _ _ => .ok _

theorem decodeW_faultsTrue (s : State) (mk : Word → Instr) :
    FaultsTrue s (decodeW mk s.prog (getReg s .ip).toNat) :=
  (fetchWord_faultsTrue s (by decide)).bind fun _ _ => .ok _

theorem decodeWR_faultsTrue (s : State) (mk : Word → Reg → Instr) :
    FaultsTrue s (decodeWR mk s.prog (getReg s .ip).toNat) :=
  (fetchWord_faultsTrue s (by decide)).bind fun _ _ =>
  (fetchByte_faultsTrue s (by decide)).bind fun _ ha =>
  (checkReg_faultsTrue (by decide) (by decide) ha).bind fun _ _ => .ok _

theorem decodeRW_faultsTrue (s : State) (mk : Reg → Word → Instr) :
    FaultsTrue s (decodeRW mk s.prog (getReg s .ip).toNat) :=
  (fetchByte_faultsTrue s (by decide)).bind fun _ ha =>
  (fetchWord_faultsTrue s (by decide)).bind fun _ _ =>
  (checkReg_faultsTrue (by decide) (by decide) ha).bind fun _ _ => .ok _

theorem decodeWW_faultsTrue (s : State) (mk : Word → Word → Instr) :
    FaultsTrue s (decodeWW mk s.prog (getReg s .ip).toNat) :=
  (fetchWord_faultsTrue s (by decide)).bind fun _ _ =>
  (fetchWord_faultsTrue s (by decide)).bind fun _ _ => .ok _

theorem decodeOperands_faultsTrue (s : State) (op : Opcode) :
    FaultsTrue s (decodeOperands op s.prog (getReg s .ip).toNat) := by
  cases op
  case halt | ret => exact .ok _
  case pushReg | popReg | incReg | decReg => exact decodeR_faultsTrue s _
  case movRegReg | addRegReg | subRegReg => exact decodeRR_faultsTrue s _
  case addRegRegReg => exact decodeRRR_faultsTrue s _
  case pushLit | incMem | decMem | jmp | call => exact decodeW_faultsTrue s _
  case movLitReg | movMemReg | addLitReg | subLitReg => exact decodeWR_faultsTrue s _
  case movRegMem | jmpNe | jmpEq | jmpGt | jmpLt | jmpGe | jmpLe => exact decodeRW_faultsTrue s _
  case movLitMem | movMemMem => exact decodeWW_faultsTrue s _

theorem decode_faultsTrue (s : State) : FaultsTrue s (decode s.prog (getReg s .ip).toNat) := by
  intro f h
  rcases decode_cases s.prog (getReg s .ip).toNat with
    ⟨hout, hd⟩ | ⟨b, hb, hbig, hd⟩ | ⟨op, -, hd⟩ <;> rw [hd] at h
  · cases h; exact ⟨by omega, .inl rfl, by omega, by omega⟩
  · cases h; exact ⟨rfl, hb, opcodeOfByte_eq_none.2 hbig⟩
  · exact decodeOperands_faultsTrue s op f h

/-- An effect runs after the advance, which changes neither memory nor its size (R248). -/
theorem effectOf_faultsTrue (i : Instr) (s : State) :
    FaultsTrue s (effectOf i (advance i.opcode s)) := by
  intro f h
  obtain ⟨a, rfl, hout, ha⟩ := effectOf_error h
  exact ⟨hout, rfl, ha⟩

/-! ### The invariant -/

theorem Inv.raiseFault {s : State} {f : FaultCause} (h : Inv s) (hf : FaultTrue s f) :
    Inv (raiseFault s f) := by
  obtain ⟨hsizes, hmem, -, -⟩ := h
  refine ⟨hsizes, hmem, (nomatch ·), fun g hg => ?_⟩
  cases hg
  exact faultTrue_raiseFault.2 hf

/-- A completed effect records no fault, so a machine that was clean stays so. -/
theorem Inv.of_effectOf {i : Instr} {s t : State} (hs : Inv s) (hrun : s.run = .running)
    (h : effectOf i (advance i.opcode s) = .ok t) : Inv t := by
  obtain ⟨hsizes, hmem, hclean, -⟩ := hs
  obtain ⟨hsize, hprog, hfault, -⟩ := effectOf_next h
  have hnone : t.fault = none := hfault.trans (hclean hrun)
  have hadvanced : MemoryFits (advance i.opcode s) := hmem.congr rfl rfl
  refine ⟨?_, effectOf_keeps_memoryFits hadvanced h, fun _ => hnone, fun g hg => ?_⟩
  · rw [SizesFit, hsize, hprog]; exact hsizes
  · rw [hnone] at hg; cases hg

theorem step_halted {s : State} (h : s.run = .halted) : step s = .next s := by
  simp only [step, h]

/-- Settles O41: a halted machine stays as it is, a fault is recorded as it happened, and a completed
instruction stores inside memory and records no fault. -/
theorem stepKeepsInvariant : Obligations.StepKeepsInvariant := by
  unfold Obligations.StepKeepsInvariant
  intro s t hinv h
  cases hrun : s.run with
  | halted =>
    rw [step_halted hrun] at h
    cases h
    exact hinv
  | running =>
    rcases step_running_cases hrun h with ⟨f, rfl, hdecode | ⟨i, -, heffect⟩⟩ | ⟨i, -, hdone⟩
    · exact hinv.raiseFault (decode_faultsTrue s f hdecode)
    · exact hinv.raiseFault (effectOf_faultsTrue i s f heffect)
    · exact hinv.of_effectOf hrun hdone

theorem Inv.resetWith {p : Config.Params} (h : paramsOk p = true) : Inv (State.resetWith p) := by
  have hsize : p.memSize ≤ Config.maxSize := of_decide_eq_true h
  have hempty : MemoryFits (State.resetWith p) := ⟨reset_mem_wf p, fun _ hc => nomatch hc⟩
  exact ⟨⟨hsize, Nat.zero_le _⟩, hempty, fun _ => rfl, fun _ hf => nomatch hf⟩

/-- Settles O42: reset leaves an empty image, an empty memory and no fault, so only the size of memory is left to
check, and the default size is in range. -/
theorem resetMeetsInvariant : Obligations.ResetMeetsInvariant := by
  unfold Obligations.ResetMeetsInvariant
  exact ⟨fun _ hp => .resetWith hp, .resetWith (by decide)⟩

/-! ### How a run ends, and what keeps memory (10_state.md R33, R38) -/

/-- Settles O33: only the effect of HALT stops the machine without a fault, and HALT never faults. -/
theorem runEndsOnlyByHaltOrFault : Obligations.RunEndsOnlyByHaltOrFault := by
  unfold Obligations.RunEndsOnlyByHaltOrFault
  intro s t hrun hclean h
  rcases step_running_cases hrun h with ⟨f, rfl, hcause⟩ | ⟨i, hdecode, hdone⟩
  case inl =>
    have hnot : decode s.prog (getReg s .ip).toNat ≠ .ok .halt := by
      intro hhalt
      rw [hhalt] at hcause
      rcases hcause with hcause | ⟨i, hi, heffect⟩
      · cases hcause
      · cases hi; cases heffect
    simp [State.cleanHalt, hnot]
  case inr =>
    obtain ⟨-, -, hfault, -, hrun', -⟩ := effectOf_next hdone
    rw [advance_fault, hclean] at hfault
    rw [advance_run, hrun] at hrun'
    have hstop : t.run = .halted ↔ i = .halt := by rw [hrun']; split <;> simp_all
    simp [State.cleanHalt, hdecode, hfault, hstop]

/-- Settles O37: a fault leaves the state the step began in, and a completed effect that may not store leaves
memory. -/
theorem onlyStoresChangeMemory : Obligations.OnlyStoresChangeMemory := by
  unfold Obligations.OnlyStoresChangeMemory
  intro i s t h hstore
  rw [exec_eq] at h
  rcases execute_cases h with hdone | ⟨f, -, rfl⟩
  · obtain ⟨-, -, -, -, -, hmem, -⟩ := effectOf_next hdone
    exact hmem hstore
  · rfl

end Sys2Proof.Machine
end

section
/-! What no step reads: the modified bits and MODE (10_state.md R35, R37; 70_reset_and_hazards.md R290). Both are
one argument over a relation between states that everything a step does respects. -/

namespace Sys2Proof.Machine

/-! ### States a step cannot tell apart -/

/-- Related states agree on all that a step reads, and each write a step makes leaves related states related. -/
structure Unseen (R : State → State → Prop) : Prop where
  regs {s u : State} : R s u → u.regs = s.regs
  mem {s u : State} : R s u → u.mem = s.mem
  memSize {s u : State} : R s u → u.memSize = s.memSize
  prog {s u : State} : R s u → u.prog = s.prog
  run {s u : State} : R s u → u.run = s.run
  setReg {s u : State} (r : Reg) (v : Word) : R s u → R (setReg s r v) (setReg u r v)
  setMem {s u : State} (m : Memory) : R s u → R { s with mem := m } { u with mem := m }
  halt {s u : State} : R s u → R { s with run := .halted } { u with run := .halted }
  raise {s u : State} (f : FaultCause) : R s u → R (raiseFault s f) (raiseFault u f)

/-- Two effects end alike: in related states, or in the same fault. -/
inductive EndAlike (R : State → State → Prop) :
    Except FaultCause State → Except FaultCause State → Prop
  | ok {s u : State} (h : R s u) : EndAlike R (.ok s) (.ok u)
  | error (f : FaultCause) : EndAlike R (.error f) (.error f)

theorem EndAlike.cases {R : State → State → Prop} {x y : Except FaultCause State} (h : EndAlike R x y) :
    (∃ s u, x = .ok s ∧ y = .ok u ∧ R s u) ∨ ∃ f, x = .error f ∧ y = .error f := by
  cases h with
  | ok h => exact .inl ⟨_, _, rfl, rfl, h⟩
  | error f => exact .inr ⟨f, rfl, rfl⟩

theorem EndAlike.bind {R : State → State → Prop} {x y : Except FaultCause State}
    {j k : State → Except FaultCause State} (h : EndAlike R x y)
    (hk : ∀ s u, R s u → EndAlike R (j s) (k u)) : EndAlike R (x >>= j) (y >>= k) := by
  cases h with
  | ok h => exact hk _ _ h
  | error f => exact .error f

section
variable {R : State → State → Prop} {s u : State}

theorem Unseen.getReg (hR : Unseen R) (h : R s u) (r : Reg) :
    Machine.getReg u r = Machine.getReg s r := congrArg (RegFile.get · r) (hR.regs h)

theorem Unseen.memRead32 (hR : Unseen R) (h : R s u) (a : Nat) :
    Machine.memRead32 u a = Machine.memRead32 s a := by
  simp only [memRead32_eq, wordAt, hR.mem h, hR.memSize h]

theorem Unseen.memWrite32 (hR : Unseen R) (h : R s u) (a : Nat) (v : Word) :
    EndAlike R (Machine.memWrite32 s a v) (Machine.memWrite32 u a v) := by
  have hsize := hR.memSize h
  rw [memWrite32_eq, memWrite32_eq, hR.mem h]
  by_cases hfit : a + 4 ≤ s.memSize
  · rw [if_pos hfit, if_pos (by rwa [hsize])]
    exact .ok (hR.setMem _ h)
  · rw [if_neg hfit, if_neg (by rwa [hsize])]
    exact .error _

/-- What is done with a word read from memory ends alike when it does for every word. -/
theorem Unseen.afterRead (hR : Unseen R) (h : R s u) (a : Nat)
    {j k : Word → Except FaultCause State} (hk : ∀ v, EndAlike R (j v) (k v)) :
    EndAlike R (Machine.memRead32 s a >>= j) (Machine.memRead32 u a >>= k) := by
  rw [hR.memRead32 h]
  cases Machine.memRead32 s a with
  | ok v => exact hk v
  | error f => exact .error f

theorem Unseen.push (hR : Unseen R) (h : R s u) (v : Word) :
    EndAlike R (Machine.push s v) (Machine.push u v) := by
  simp only [Machine.push, hR.getReg h]
  exact (hR.memWrite32 h _ v).bind fun _ _ h' => .ok (hR.setReg .sp _ h')

theorem Unseen.pushAll (hR : Unseen R) (h : R s u) (vs : List Word) :
    EndAlike R (Machine.pushAll s vs) (Machine.pushAll u vs) := by
  induction vs generalizing s u with
  | nil => exact .ok h
  | cons v vs ih => exact (hR.push h v).bind fun _ _ h' => ih h'

theorem Unseen.popInto (hR : Unseen R) (h : R s u) (r : Reg) :
    EndAlike R (Machine.popInto s r) (Machine.popInto u r) := by
  simp only [popInto_eq, wordAt, hR.getReg h, hR.mem h, hR.memSize h]
  split
  · exact .ok (hR.setReg r _ (hR.setReg .sp _ h))
  · exact .error _

theorem Unseen.popAll (hR : Unseen R) (h : R s u) (rs : List Reg) :
    EndAlike R (Machine.popAll s rs) (Machine.popAll u rs) := by
  induction rs generalizing s u with
  | nil => exact .ok h
  | cons r rs ih => exact (hR.popInto h r).bind fun _ _ h' => ih h'

theorem Unseen.condJump (hR : Unseen R) (h : R s u) (rel : Relation) (r : Reg) (target : Word) :
    EndAlike R (Machine.condJump rel r target s) (Machine.condJump rel r target u) := by
  have hcond : jumpCondition u rel r = jumpCondition s rel r := by
    simp only [jumpCondition, hR.getReg h]
  simp only [Machine.condJump, hcond]
  split
  · exact .ok (hR.setReg .ip target h)
  · exact .ok h

theorem Unseen.callEffect (hR : Unseen R) (h : R s u) (target : Word) :
    EndAlike R (Machine.callEffect target s) (Machine.callEffect target u) := by
  have hframe : frameRegs.map (sourceValue u) = frameRegs.map (sourceValue s) :=
    List.map_congr_left fun r _ => hR.getReg h r
  simp only [Machine.callEffect, hframe]
  refine (hR.pushAll h _).bind fun s' u' h' => ?_
  rw [hR.getReg h' .sp]
  exact .ok (hR.setReg .ip target (hR.setReg .fp _ h'))

theorem Unseen.returnEffect (hR : Unseen R) (h : R s u) :
    EndAlike R (Machine.returnEffect s) (Machine.returnEffect u) := by
  simp only [Machine.returnEffect, hR.getReg h]
  exact hR.popAll (hR.setReg .sp _ h) _

theorem Unseen.effectOf (hR : Unseen R) (h : R s u) (i : Instr) :
    EndAlike R (Machine.effectOf i s) (Machine.effectOf i u) := by
  cases i <;> simp only [Machine.effectOf, hR.getReg h]
  case halt => exact .ok (hR.halt h)
  case pushLit | pushReg => exact hR.push h _
  case popReg dst => exact hR.popInto h dst
  case movMemReg mem dst => exact hR.afterRead h _ fun v => .ok (hR.setReg dst v h)
  case movLitMem | movRegMem => exact hR.memWrite32 h _ _
  case movMemMem | incMem | decMem => exact hR.afterRead h _ fun _ => hR.memWrite32 h _ _
  case jmpNe | jmpEq | jmpGt | jmpLt | jmpGe | jmpLe => exact hR.condJump h _ _ _
  case call target => exact hR.callEffect h target
  case ret => exact hR.returnEffect h
  all_goals exact .ok (hR.setReg _ _ h)

theorem Unseen.exec (hR : Unseen R) (h : R s u) (i : Instr) :
    ∃ s' u', Machine.exec i s = .next s' ∧ Machine.exec i u = .next u' ∧ R s' u' := by
  have hadvance : R (advance i.opcode s) (advance i.opcode u) := by
    simp only [advance, incReg, hR.getReg h]
    exact hR.setReg .ip _ h
  rw [exec_eq, exec_eq]
  rcases (hR.effectOf hadvance i).cases with ⟨s', u', hs, hu, h'⟩ | ⟨f, hs, hu⟩
  · exact ⟨s', u', execute_of_ok hs, execute_of_ok hu, h'⟩
  · exact ⟨_, _, execute_of_error hs, execute_of_error hu, hR.raise f h⟩

/-- Steps from related states lead to related states. -/
theorem Unseen.step (hR : Unseen R) (h : R s u) :
    ∃ s' u', Machine.step s = .next s' ∧ Machine.step u = .next u' ∧ R s' u' := by
  have hfetch : fetchInstr u = fetchInstr s := by
    simp only [fetchInstr, hR.prog h, hR.getReg h]
  simp only [Machine.step, hR.run h, hfetch]
  cases s.run with
  | halted => exact ⟨s, u, rfl, rfl, h⟩
  | running =>
    cases fetchInstr s with
    | error f => exact ⟨_, _, rfl, rfl, hR.raise f h⟩
    | ok i => exact hR.exec h i

end

/-! ### The two relations -/

/-- The states differ at most in their modified bits. -/
def SameButModified (s u : State) : Prop := s.forgetModified = u.forgetModified

/-- The second state is the first one in the mode `m`. -/
def SameInMode (m : RunMode) (s u : State) : Prop := u = { s with mode := m }

theorem forgetModified_setReg (s : State) (r : Reg) (v : Word) :
    (setReg s r v).forgetModified =
      { s.forgetModified with regs := s.forgetModified.regs.set r v } := rfl

theorem unseen_modified : Unseen SameButModified where
  regs h := (congrArg State.regs h).symm
  mem h := (congrArg State.mem h).symm
  memSize h := (congrArg State.memSize h).symm
  prog h := (congrArg State.prog h).symm
  run h := (congrArg State.run h).symm
  setReg r v h := by rw [SameButModified, forgetModified_setReg, forgetModified_setReg, h]
  setMem m h := congrArg (fun w : State => ({ w with mem := m } : State)) h
  halt h := congrArg (fun w : State => ({ w with run := .halted } : State)) h
  raise f h := congrArg (raiseFault · f) h

theorem unseen_mode (m : RunMode) : Unseen (SameInMode m) where
  regs h := by rw [h]
  mem h := by rw [h]
  memSize h := by rw [h]
  prog h := by rw [h]
  run h := by rw [h]
  setReg r v h := congrArg (setReg · r v) h
  setMem n h := congrArg (fun w : State => ({ w with mem := n } : State)) h
  halt h := congrArg (fun w : State => ({ w with run := .halted } : State)) h
  raise f h := congrArg (raiseFault · f) h

/-- Settles O39: no step sees the modified bits. -/
theorem modifiedBitsHaveNoInfluence : Obligations.ModifiedBitsHaveNoInfluence := by
  unfold Obligations.ModifiedBitsHaveNoInfluence
  intro s u h
  obtain ⟨s', u', hs, hu, h'⟩ := unseen_modified.step h
  rw [hs, hu]
  exact congrArg Host.Outcome.next h'

/-- Settles O40: no step sees MODE or writes it, and start writes the mode it is given. -/
theorem modeHasNoInfluence : Obligations.ModeHasNoInfluence := by
  unfold Obligations.ModeHasNoInfluence
  intro s t m e
  refine ⟨fun h => ?_, start_mode e m s⟩
  have hsame : SameInMode m s { s with mode := m } := rfl
  obtain ⟨s', u', hs, hu, rfl⟩ := (unseen_mode m).step hsame
  rw [hs] at h
  cases h
  exact hu

end Sys2Proof.Machine
end

section
/-! The registers and their modified bits (10_state.md R28, R37), and what reset and start leave (R40, R41;
70_reset_and_hazards.md R280, R289, R290). -/

namespace Sys2Proof.Machine

/-! ### set, inc, dec and reset_modified (10_state.md R28, R37) -/

@[simp] theorem isModified_resetModified (s : State) (r : Reg) :
    isModified (resetModified s) r = false := by cases r <;> rfl

theorem isModified_setReg_same (s : State) (r : Reg) (v : Word) :
    isModified (setReg s r v) r = true := by rw [isModified_setReg, if_pos rfl]

theorem isModified_setReg_other (s : State) {r q : Reg} (v : Word) (h : q ≠ r) :
    isModified (setReg s r v) q = isModified s q := by rw [isModified_setReg, if_neg h]

theorem sameControl_resetModified (s : State) : SameControl s (resetModified s) :=
  ⟨rfl, rfl, rfl, rfl, rfl⟩

/-- Each of the three writes is a set, of one value or another. -/
theorem exists_setReg_of_write {s t : State} {r : Reg} {v : Word}
    (h : t = setReg s r v ∨ t = incReg s r v ∨ t = decReg s r v) : ∃ w, t = setReg s r w := by
  rcases h with h | h | h
  · exact ⟨v, h⟩
  · exact ⟨getReg s r + v, h⟩
  · exact ⟨getReg s r - v, h⟩

@[simp] theorem getReg_incReg_same (s : State) (r : Reg) (v : Word) :
    getReg (incReg s r v) r = getReg s r + v := getReg_setReg_same s r _

@[simp] theorem getReg_decReg_same (s : State) (r : Reg) (v : Word) :
    getReg (decReg s r v) r = getReg s r - v := getReg_setReg_same s r _

/-- Settles O55: what a set does, for each of the three writes, and the arithmetic of the last two. -/
theorem modifiedBitsFollowWrites : Obligations.ModifiedBitsFollowWrites := by
  unfold Obligations.ModifiedBitsFollowWrites
  intro s r v
  refine ⟨fun q => ⟨isModified_resetModified s q, getReg_resetModified s q⟩, resetModified_mem s,
    sameControl_resetModified s, fun t ht => ?_, getReg_setReg_same s r v, ?_, ?_⟩
  · obtain ⟨w, rfl⟩ := exists_setReg_of_write ht
    exact ⟨isModified_setReg_same s r w,
      fun q hq => ⟨isModified_setReg_other s w hq, getReg_setReg_other s w hq⟩⟩
  · rw [getReg_incReg_same, BitVec.toNat_add]
  · rw [getReg_decReg_same, BitVec.toNat_sub]
    omega

/-! ### start (10_state.md R41) -/

/-- Of the registers and their modified bits, start changes what a set of IP changes. -/
@[simp] theorem getReg_start (e : Word) (m : RunMode) (s : State) (r : Reg) :
    getReg (start e m s) r = getReg (setReg s .ip e) r := rfl

@[simp] theorem isModified_start (e : Word) (m : RunMode) (s : State) (r : Reg) :
    isModified (start e m s) r = isModified (setReg s .ip e) r := rfl

/-- Settles O54: IP is set as any register is, and start's three other writes are no registers. -/
theorem startChangesFourThings : Obligations.StartChangesFourThings := by
  unfold Obligations.StartChangesFourThings
  intro e m s
  refine ⟨getReg_setReg_same s .ip e, start_run e m s, start_fault e m s, start_mode e m s,
    isModified_setReg_same s .ip e, fun r hr => ?_, start_mem e m s, start_memSize e m s,
    start_prog e m s⟩
  rw [getReg_start, isModified_start]
  exact ⟨getReg_setReg_other s e hr, isModified_setReg_other s e hr⟩

/-! ### reset (10_state.md R40) -/

@[simp] theorem isModified_resetWith (p : Config.Params) (r : Reg) :
    isModified (State.resetWith p) r = false := by cases r <;> rfl

@[simp] theorem readByte_resetWith (p : Config.Params) (a : Nat) :
    (State.resetWith p).mem.readByte a = 0 := rfl

/-- Settles O53: reset writes every field from its parameters alone. -/
theorem resetValues : Obligations.ResetValues := by
  unfold Obligations.ResetValues
  intro p s
  refine ⟨?r0, ?r1, ?r2, ?r3, ?acc, ?ip, ?sp, ?fp, isModified_resetWith p, readByte_resetWith p,
    ?memSize, ?run, ?fault, ?mode, ?defaults, ?reset, ?defaultSp, ?defaultFp, ?defaultAcc⟩
  case defaults => exact fun _ => rfl
  all_goals rfl

end Sys2Proof.Machine
end

section
/-! Working memory and the stack that stands in it (20_memory.md R50 to R57, R62, R63), and what no run of any
length changes (R50, R69; 10_state.md R35). -/

namespace Sys2Proof.Machine

/-! ### Runs -/

theorem run_succ_eq_next {M : Host.Core} {n : Nat} {s t : M.State} (h : M.run (n + 1) s = .next t) :
    ∃ u, M.step s = .next u ∧ M.run n u = .next t := by
  rw [Host.Core.run] at h
  split at h
  next u hu => exact ⟨u, hu, h⟩
  next => cases h
  next => cases h

/-- What every step keeps, every run keeps. -/
theorem run_keeps {M : Host.Core} {P : M.State → Prop} (hstep : ∀ s t, M.step s = .next t → P s → P t)
    {n : Nat} {s t : M.State} (h : M.run n s = .next t) (hs : P s) : P t := by
  induction n generalizing s with
  | zero => cases h; exact hs
  | succ n ih =>
    obtain ⟨u, hu, hrest⟩ := run_succ_eq_next h
    exact ih hrest (hstep s u hu hs)

/-! ### The image, the memory size and the mode (R50, R69; 10_state.md R35) -/

/-- The second state has the first one's program image, memory size and mode. -/
def SameImage (s t : State) : Prop := t.prog = s.prog ∧ t.memSize = s.memSize ∧ t.mode = s.mode

theorem SameImage.refl (s : State) : SameImage s s := ⟨rfl, rfl, rfl⟩

theorem SameImage.trans {s t u : State} (h : SameImage s t) (h' : SameImage t u) : SameImage s u := by
  obtain ⟨hprog, hsize, hmode⟩ := h
  obtain ⟨hprog', hsize', hmode'⟩ := h'
  exact ⟨hprog'.trans hprog, hsize'.trans hsize, hmode'.trans hmode⟩

theorem raiseFault_sameImage (s : State) (f : FaultCause) : SameImage s (raiseFault s f) :=
  ⟨raiseFault_prog s f, raiseFault_memSize s f, raiseFault_mode s f⟩

theorem advance_sameImage (op : Opcode) (s : State) : SameImage s (advance op s) :=
  ⟨advance_prog op s, advance_memSize op s, advance_mode op s⟩

theorem effectOf_sameImage {i : Instr} {s t : State} (h : effectOf i s = .ok t) : SameImage s t := by
  obtain ⟨hsize, hprog, -, hmode, -⟩ := effectOf_next h
  exact ⟨hprog, hsize, hmode⟩

theorem step_sameImage {s t : State} (h : step s = .next t) : SameImage s t := by
  cases hrun : s.run with
  | halted =>
    rw [step_halted hrun] at h
    cases h
    exact .refl s
  | running =>
    rcases step_running_cases hrun h with ⟨f, rfl, -⟩ | ⟨i, -, hdone⟩
    · exact raiseFault_sameImage s f
    · exact (advance_sameImage i.opcode s).trans (effectOf_sameImage hdone)

/-- Settles O38: having the first state's image, size and mode is kept by every step, so by every run. -/
theorem stepsKeepImage : Obligations.StepsKeepImage := by
  unfold Obligations.StepsKeepImage
  intro n s t h
  exact run_keeps (M := Sys2Proof.core) (P := SameImage s) (fun _ _ hstep hs => hs.trans (step_sameImage hstep)) h
    (.refl s)

/-! ### MemRead and MemWrite (R53, R54, R55, R57) -/

theorem memRead_overrun {s : State} {a n : Nat} (h : s.memSize < a + n) :
    memRead s a n = .error (.memOutOfBounds a n) := by rw [memRead_eq, if_neg (Nat.not_le.2 h)]

theorem memWrite_overrun {s : State} {a n : Nat} (h : s.memSize < a + n) (v : Nat) :
    memWrite s a n v = .error (.memOutOfBounds a n) := by rw [memWrite_eq, if_neg (Nat.not_le.2 h)]

/-- The byte at the lowest address is the most significant of four (R51, R53). -/
theorem beValue_readBytes_four (m : Memory) (a : Nat) :
    beValue (m.readBytes a 4) =
      (m.readByte a).toNat * 2 ^ 24 + (m.readByte (a + 1)).toNat * 2 ^ 16 +
        (m.readByte (a + 2)).toNat * 2 ^ 8 + (m.readByte (a + 3)).toNat := by
  simp only [Memory.readBytes, beValue, List.length_cons, List.length_nil, Nat.add_assoc, Nat.reduceAdd]
  omega

theorem beValue_readBytes_writeBytes_beBytes (m : Memory) (a n v : Nat) :
    beValue ((m.writeBytes a (beBytes n v)).readBytes a n) = v % 2 ^ (8 * n) := by
  have hread := m.readBytes_writeBytes_same a (beBytes n v)
  have hpow : 2 ^ (8 * n) = 256 ^ n := pow_mul 2 8 n
  rw [beBytes_length] at hread
  rw [hread, beValue_beBytes, hpow]

/-- Settles O48: the bounds check decides, and the four bytes weigh as big-endian says. -/
theorem memReadIsBigEndian : Obligations.MemReadIsBigEndian := by
  unfold Obligations.MemReadIsBigEndian
  refine fun s a => ⟨fun hfit => ?_, memRead_overrun⟩
  rw [memRead_eq, if_pos hfit, beValue_readBytes_four]

/-- Settles O49: the write is that of the value's low bytes, of which the laws of memory say each part. -/
theorem memWriteStoresLowBits : Obligations.MemWriteStoresLowBits := by
  unfold Obligations.MemWriteStoresLowBits
  intro s a n v
  refine ⟨fun hfit => ⟨s.mem.writeBytes a (beBytes n v), ?write, ?inside, ?outside, ?canonical, ?readBack⟩,
    fun hout => memWrite_overrun hout v⟩
  case write => rw [memWrite_eq, if_pos hfit]
  case inside => exact fun k hk => s.mem.readByte_writeBytes_beBytes a v hk
  case outside =>
    exact fun b hb => s.mem.readByte_writeBytes_outside a (beBytes n v) (by rwa [beBytes_length])
  case canonical => exact Memory.wf_writeBytes a (beBytes n v)
  case readBack => rw [memRead_eq, if_pos hfit, beValue_readBytes_writeBytes_beBytes]

/-! ### push and pop (R62, R63) -/

/-- A push that completes fitted at the new SP, and stored its word there. -/
theorem push_eq_ok {s t : State} {v : Word} (h : push s v = .ok t) :
    (getReg t .sp).toNat + 4 ≤ t.memSize ∧ getReg t .sp = getReg s .sp - 4 ∧
      wordAt t (getReg t .sp).toNat = v := by
  rw [push_eq] at h
  split at h
  next hfit =>
    cases h
    rw [getReg_setReg_same]
    exact ⟨hfit, rfl, wordAt_writeBytes_same s s.mem _ v⟩
  next => cases h

/-- SP goes down 4 and up 4 modulo `2^32`, so a pop after a push is back where it was, even across 0. -/
theorem pop_of_push {s t : State} {v : Word} (h : push s v = .ok t) :
    pop t = .ok (v, setReg t .sp (getReg s .sp)) := by
  obtain ⟨hfit, hsp, hword⟩ := push_eq_ok h
  have hback : getReg t .sp + 4 = getReg s .sp := by rw [hsp, BitVec.sub_add_cancel]
  rw [pop_eq, if_pos hfit, hword, hback]

/-- Settles O50: push and pop are one checked access and one move of SP, and pop undoes both of push's. -/
theorem pushThenPop : Obligations.PushThenPop := by
  unfold Obligations.PushThenPop
  intro s v
  refine ⟨?push, ?pop, fun t h => ⟨_, pop_of_push h, getReg_setReg_same t .sp _⟩⟩
  case push =>
    simp only [push, memWrite32]
    cases memWrite s (getReg s .sp - 4).toNat 4 v.toNat <;> rfl
  case pop =>
    simp only [pop, memRead32]
    cases memRead s (getReg s .sp).toNat 4 <;> rfl

end Sys2Proof.Machine
end

section
/-! Decoding and encoding (30_encoding.md R82, R90, R93; 40_execution_cycle.md R133, R134). Decoding answers an
instruction exactly where its bytes stand, one lemma for each shape of operands; both directions of the round trip
are read off from that. -/

namespace Sys2Proof.Machine

/-! ### What the decoder of each shape answers (R82) -/

section
variable {prog : List Byte} {pc0 : Nat} {i : Instr}

theorem decodeR_eq_ok {mk : Reg → Instr} :
    decodeR mk prog pc0 = .ok i ↔ ∃ r, BytesAt prog (pc0 + 1) [regByte r] ∧ mk r = i := by
  simp [decodeR, except_bind_eq_ok, fetchByte_eq_ok, checkReg_eq_ok, BytesAt_cons]

theorem decodeRR_eq_ok {mk : Reg → Reg → Instr} :
    decodeRR mk prog pc0 = .ok i ↔
      ∃ ra rb, BytesAt prog (pc0 + 1) [regByte ra, regByte rb] ∧ mk ra rb = i := by
  simp [decodeRR, except_bind_eq_ok, fetchByte_eq_ok, checkReg_eq_ok, BytesAt_cons, and_assoc]

theorem decodeRRR_eq_ok {mk : Reg → Reg → Reg → Instr} :
    decodeRRR mk prog pc0 = .ok i ↔
      ∃ ra rb rc, BytesAt prog (pc0 + 1) [regByte ra, regByte rb, regByte rc] ∧ mk ra rb rc = i := by
  simp [decodeRRR, except_bind_eq_ok, fetchByte_eq_ok, checkReg_eq_ok, BytesAt_cons, and_assoc]

theorem decodeW_eq_ok {mk : Word → Instr} :
    decodeW mk prog pc0 = .ok i ↔ ∃ v, BytesAt prog (pc0 + 1) (wordBytes v) ∧ mk v = i := by
  simp [decodeW, except_bind_eq_ok, fetchWord_eq_ok]

theorem decodeWR_eq_ok {mk : Word → Reg → Instr} :
    decodeWR mk prog pc0 = .ok i ↔
      ∃ v r, BytesAt prog (pc0 + 1) (wordBytes v ++ [regByte r]) ∧ mk v r = i := by
  simp [decodeWR, except_bind_eq_ok, fetchWord_eq_ok, fetchByte_eq_ok, checkReg_eq_ok, BytesAt_append,
    BytesAt_cons, and_assoc]

theorem decodeRW_eq_ok {mk : Reg → Word → Instr} :
    decodeRW mk prog pc0 = .ok i ↔
      ∃ v r, BytesAt prog (pc0 + 1) (regByte r :: wordBytes v) ∧ mk r v = i := by
  simp [decodeRW, except_bind_eq_ok, fetchWord_eq_ok, fetchByte_eq_ok, checkReg_eq_ok, BytesAt_cons, and_assoc]

theorem decodeWW_eq_ok {mk : Word → Word → Instr} :
    decodeWW mk prog pc0 = .ok i ↔
      ∃ v w, BytesAt prog (pc0 + 1) (wordBytes v ++ wordBytes w) ∧ mk v w = i := by
  simp [decodeWW, except_bind_eq_ok, fetchWord_eq_ok, BytesAt_append, and_assoc]

/-! ### Both directions of the round trip (R82, R93) -/

theorem decodeOperands_of_bytesAt (h : BytesAt prog (pc0 + 1) (operandBytes i)) :
    decodeOperands i.opcode prog pc0 = .ok i := by
  cases i
  case halt | ret => rfl
  case pushReg | popReg | incReg | decReg => exact decodeR_eq_ok.2 ⟨_, h, rfl⟩
  case movRegReg | addRegReg | subRegReg => exact decodeRR_eq_ok.2 ⟨_, _, h, rfl⟩
  case addRegRegReg => exact decodeRRR_eq_ok.2 ⟨_, _, _, h, rfl⟩
  case pushLit | incMem | decMem | jmp | call => exact decodeW_eq_ok.2 ⟨_, h, rfl⟩
  case movLitReg | movMemReg | addLitReg | subLitReg => exact decodeWR_eq_ok.2 ⟨_, _, h, rfl⟩
  case movRegMem | jmpNe | jmpEq | jmpGt | jmpLt | jmpGe | jmpLe =>
    exact decodeRW_eq_ok.2 ⟨_, _, h, rfl⟩
  case movLitMem | movMemMem => exact decodeWW_eq_ok.2 ⟨_, _, h, rfl⟩

theorem bytesAt_of_decodeOperands {op : Opcode} (h : decodeOperands op prog pc0 = .ok i) :
    i.opcode = op ∧ BytesAt prog (pc0 + 1) (operandBytes i) := by
  cases op
  case halt | ret => cases h; exact ⟨rfl, BytesAt_nil _ _⟩
  case pushReg | popReg | incReg | decReg =>
    obtain ⟨r, hbytes, rfl⟩ := decodeR_eq_ok.1 h; exact ⟨rfl, hbytes⟩
  case movRegReg | addRegReg | subRegReg =>
    obtain ⟨ra, rb, hbytes, rfl⟩ := decodeRR_eq_ok.1 h; exact ⟨rfl, hbytes⟩
  case addRegRegReg =>
    obtain ⟨ra, rb, rc, hbytes, rfl⟩ := decodeRRR_eq_ok.1 h; exact ⟨rfl, hbytes⟩
  case pushLit | incMem | decMem | jmp | call =>
    obtain ⟨v, hbytes, rfl⟩ := decodeW_eq_ok.1 h; exact ⟨rfl, hbytes⟩
  case movLitReg | movMemReg | addLitReg | subLitReg =>
    obtain ⟨v, r, hbytes, rfl⟩ := decodeWR_eq_ok.1 h; exact ⟨rfl, hbytes⟩
  case movRegMem | jmpNe | jmpEq | jmpGt | jmpLt | jmpGe | jmpLe =>
    obtain ⟨v, r, hbytes, rfl⟩ := decodeRW_eq_ok.1 h; exact ⟨rfl, hbytes⟩
  case movLitMem | movMemMem =>
    obtain ⟨v, w, hbytes, rfl⟩ := decodeWW_eq_ok.1 h; exact ⟨rfl, hbytes⟩

/-- An instruction is decoded exactly where its bytes stand. -/
theorem decode_eq_ok : decode prog pc0 = .ok i ↔ BytesAt prog pc0 (encode i) := by
  rw [encode, BytesAt_cons]
  constructor
  · intro h
    rcases decode_cases prog pc0 with ⟨-, hd⟩ | ⟨b, -, -, hd⟩ | ⟨op, hop, hd⟩ <;> rw [hd] at h
    · cases h
    · cases h
    · obtain ⟨rfl, hbytes⟩ := bytesAt_of_decodeOperands h
      exact ⟨hop, hbytes⟩
  · rintro ⟨hop, hbytes⟩
    rw [decode_of_opcode hop]
    exact decodeOperands_of_bytesAt hbytes

end

theorem decode_encode (i : Instr) (before after : List Byte) :
    decode (before ++ encode i ++ after) before.length = .ok i :=
  decode_eq_ok.2 (BytesAt_self before (encode i) after)

/-- Settles O43: an instruction's bytes stand where they were put. -/
theorem decodeOfEncode : Obligations.DecodeOfEncode := by
  unfold Obligations.DecodeOfEncode
  exact decode_encode

/-- Settles O44: only the bytes of an instruction decode to it, and bytes that stand in an image lie inside it. -/
theorem decodedBytesAreEncoding : Obligations.DecodedBytesAreEncoding := by
  unfold Obligations.DecodedBytesAreEncoding
  intro prog pc0 i h
  have hbytes : BytesAt prog pc0 (encode i) := decode_eq_ok.1 h
  exact ⟨hbytes, encode_length i ▸ BytesAt_length hbytes (encode_ne_nil i)⟩

theorem decode_of_encode_eq {bs : List Byte} {i : Instr} (h : encode i = bs) : decode bs 0 = .ok i := by
  simpa [h] using decode_encode i [] []

/-- Settles O47: each of the words is what the encoder writes for its instruction. -/
theorem specWordsDecode : Obligations.SpecWordsDecode := by
  unfold Obligations.SpecWordsDecode
  refine ⟨?_, ?_, ?_, ?_, ?_, ?_, ?_, ?_, ?_, ?_, ?_, ?_, ?_, ?_, ?_⟩ <;> exact decode_of_encode_eq rfl

/-! ### The first register id above 7 (R90; 40_execution_cycle.md R134) -/

/-- Of the id bytes at a list of offsets, the one at `k` is above 7 and none at a smaller offset is. -/
def FirstBadId (prog : List Byte) (pc0 : Nat) (offsets : List Nat) (k : Nat) (id : Byte) : Prop :=
  k ∈ offsets ∧ prog[pc0 + k]? = some id ∧ 7 < id.toNat ∧
    ∀ j ∈ offsets, j < k → ∀ b : Byte, prog[pc0 + j]? = some b → b.toNat ≤ 7

section
variable {prog : List Byte} {pc0 k : Nat} {id : Byte}

theorem not_firstBadId_nil : ¬ FirstBadId prog pc0 [] k id := by simp [FirstBadId]

/-- The first bad id among offsets in rising order is the first of them, or the first is good and the bad one is
among the rest. -/
theorem FirstBadId.cons_cases {j : Nat} {offsets : List Nat} {b : Byte}
    (h : FirstBadId prog pc0 (j :: offsets) k id) (hrising : ∀ i ∈ offsets, j < i)
    (hb : prog[pc0 + j]? = some b) :
    (k = j ∧ id = b ∧ 7 < b.toNat) ∨ (b.toNat ≤ 7 ∧ FirstBadId prog pc0 offsets k id) := by
  obtain ⟨hk, hid, hbad, hgood⟩ := h
  rcases List.mem_cons.1 hk with rfl | hk
  · obtain rfl : b = id := Option.some.inj (hb.symm.trans hid)
    exact .inl ⟨rfl, rfl, hbad⟩
  · exact .inr ⟨hgood j (by simp) (hrising k hk) b hb, hk, hid, hbad,
      fun i hi => hgood i (List.mem_cons_of_mem _ hi)⟩

theorem checkReg_of_le {j : Nat} {b : Byte} (h : b.toNat ≤ 7) : ∃ r, checkReg pc0 j b = .ok r := by
  cases hc : checkReg pc0 j b with
  | ok r => exact ⟨r, rfl⟩
  | error f => exact absurd (checkReg_eq_error.1 hc).1 (by omega)

/-- A register check reports the first bad id, if what follows it reports the first bad id of the later
operands. -/
theorem checkReg_bind_of_firstBadId {j : Nat} {offsets : List Nat} {b : Byte}
    {rest : Reg → Except FaultCause Instr} (hb : prog[pc0 + j]? = some b)
    (hrising : ∀ i ∈ offsets, j < i) (h : FirstBadId prog pc0 (j :: offsets) k id)
    (hrest : ∀ r, FirstBadId prog pc0 offsets k id → rest r = .error (.regOutOfBounds (pc0 + k) id)) :
    (checkReg pc0 j b >>= rest) = .error (.regOutOfBounds (pc0 + k) id) := by
  rcases h.cons_cases hrising hb with ⟨rfl, rfl, hbad⟩ | ⟨hgood, hlater⟩
  · rw [checkReg_eq_error.2 ⟨hbad, rfl⟩, except_error_bind]
  · obtain ⟨r, hr⟩ := checkReg_of_le (pc0 := pc0) (j := j) hgood
    rw [hr, except_ok_bind, hrest r hlater]

/-- The check of the last register operand. -/
theorem checkReg_bind_of_onlyBadId {j : Nat} {b : Byte} {rest : Reg → Except FaultCause Instr}
    (hb : prog[pc0 + j]? = some b) (h : FirstBadId prog pc0 [j] k id) :
    (checkReg pc0 j b >>= rest) = .error (.regOutOfBounds (pc0 + k) id) :=
  checkReg_bind_of_firstBadId hb (by simp) h fun _ hnil => absurd hnil not_firstBadId_nil

theorem exists_byte_of_lt {a : Nat} (h : a < prog.length) : ∃ b, prog[a]? = some b :=
  ⟨_, List.getElem?_eq_getElem h⟩

theorem exists_fetchWord {j : Nat} (h : pc0 + j + 4 ≤ prog.length) : ∃ v, fetchWord prog pc0 j = .ok v :=
  ⟨_, by rw [fetchWord_eq, if_pos h]⟩

theorem decodeR_of_firstBadId (mk : Reg → Instr) (hfit : pc0 + 2 ≤ prog.length)
    (h : FirstBadId prog pc0 [1] k id) :
    decodeR mk prog pc0 = .error (.regOutOfBounds (pc0 + k) id) := by
  obtain ⟨a, ha⟩ := exists_byte_of_lt (show pc0 + 1 < prog.length by omega)
  simp only [decodeR, fetchByte_of_some ha, except_ok_bind]
  exact checkReg_bind_of_onlyBadId ha h

theorem decodeRR_of_firstBadId (mk : Reg → Reg → Instr) (hfit : pc0 + 3 ≤ prog.length)
    (h : FirstBadId prog pc0 [1, 2] k id) :
    decodeRR mk prog pc0 = .error (.regOutOfBounds (pc0 + k) id) := by
  obtain ⟨a, ha⟩ := exists_byte_of_lt (show pc0 + 1 < prog.length by omega)
  obtain ⟨b, hb⟩ := exists_byte_of_lt (show pc0 + 2 < prog.length by omega)
  simp only [decodeRR, fetchByte_of_some ha, fetchByte_of_some hb, except_ok_bind]
  exact checkReg_bind_of_firstBadId ha (by decide) h fun _ h => checkReg_bind_of_onlyBadId hb h

theorem decodeRRR_of_firstBadId (mk : Reg → Reg → Reg → Instr) (hfit : pc0 + 4 ≤ prog.length)
    (h : FirstBadId prog pc0 [1, 2, 3] k id) :
    decodeRRR mk prog pc0 = .error (.regOutOfBounds (pc0 + k) id) := by
  obtain ⟨a, ha⟩ := exists_byte_of_lt (show pc0 + 1 < prog.length by omega)
  obtain ⟨b, hb⟩ := exists_byte_of_lt (show pc0 + 2 < prog.length by omega)
  obtain ⟨c, hc⟩ := exists_byte_of_lt (show pc0 + 3 < prog.length by omega)
  simp only [decodeRRR, fetchByte_of_some ha, fetchByte_of_some hb, fetchByte_of_some hc, except_ok_bind]
  exact checkReg_bind_of_firstBadId ha (by decide) h fun _ h =>
    checkReg_bind_of_firstBadId hb (by decide) h fun _ h => checkReg_bind_of_onlyBadId hc h

theorem decodeWR_of_firstBadId (mk : Word → Reg → Instr) (hfit : pc0 + 6 ≤ prog.length)
    (h : FirstBadId prog pc0 [5] k id) :
    decodeWR mk prog pc0 = .error (.regOutOfBounds (pc0 + k) id) := by
  obtain ⟨v, hv⟩ := exists_fetchWord (show pc0 + 1 + 4 ≤ prog.length by omega)
  obtain ⟨a, ha⟩ := exists_byte_of_lt (show pc0 + 5 < prog.length by omega)
  simp only [decodeWR, hv, fetchByte_of_some ha, except_ok_bind]
  exact checkReg_bind_of_onlyBadId ha h

theorem decodeRW_of_firstBadId (mk : Reg → Word → Instr) (hfit : pc0 + 6 ≤ prog.length)
    (h : FirstBadId prog pc0 [1] k id) :
    decodeRW mk prog pc0 = .error (.regOutOfBounds (pc0 + k) id) := by
  obtain ⟨a, ha⟩ := exists_byte_of_lt (show pc0 + 1 < prog.length by omega)
  obtain ⟨v, hv⟩ := exists_fetchWord (show pc0 + 2 + 4 ≤ prog.length by omega)
  simp only [decodeRW, hv, fetchByte_of_some ha, except_ok_bind]
  exact checkReg_bind_of_onlyBadId ha h

theorem decodeOperands_of_firstBadId {op : Opcode} (hfit : pc0 + op.len ≤ prog.length)
    (h : FirstBadId prog pc0 (regOffsets op) k id) :
    decodeOperands op prog pc0 = .error (.regOutOfBounds (pc0 + k) id) := by
  cases op
  case pushReg | popReg | incReg | decReg => exact decodeR_of_firstBadId _ hfit h
  case movRegReg | addRegReg | subRegReg => exact decodeRR_of_firstBadId _ hfit h
  case addRegRegReg => exact decodeRRR_of_firstBadId _ hfit h
  case movLitReg | movMemReg | addLitReg | subLitReg => exact decodeWR_of_firstBadId _ hfit h
  case movRegMem | jmpNe | jmpEq | jmpGt | jmpLt | jmpGe | jmpLe => exact decodeRW_of_firstBadId _ hfit h
  case halt | ret | pushLit | incMem | decMem | jmp | call | movLitMem | movMemMem =>
    exact absurd h not_firstBadId_nil

end

/-- Settles O46: no fetch of a whole instruction faults, and the register checks are made in operand order. -/
theorem firstBadRegisterIdReported : Obligations.FirstBadRegisterIdReported := by
  unfold Obligations.FirstBadRegisterIdReported
  intro prog pc0 op k id hop hfit hk hid hbad hgood
  rw [decode_of_opcode hop]
  exact decodeOperands_of_firstBadId hfit ⟨hk, hid, hbad, hgood⟩

end Sys2Proof.Machine
end

section
/-! The assembler (30_encoding.md R105 to R116): what an assembly that succeeds says of its lines, its labels and
its bytes. -/

namespace Sys2Proof.Machine

/-! ### The passes, taken apart (R106, R112, R113) -/

theorem programOf_eq_ok {items : List Item} {is : List Instr} :
    programOf items = .ok is ↔
      ((labelTable 0 items).map Prod.fst).Nodup ∧ resolveItems (labelTable 0 items) items = .ok is := by
  simp only [programOf]
  split
  next hnodup => simp [hnodup]
  next hdup => simp [hdup]

theorem assembleItems_eq_ok {items : List Item} {bytes : List Byte} :
    assembleItems items = .ok bytes ↔ ∃ is, programOf items = .ok is ∧ emit is = bytes := by
  simp [assembleItems, except_bind_eq_ok]

/-! ### Labels written as their addresses (R113) -/

/-- A target written as its address, or left as it was, resolves to what it did. -/
theorem resolveTarget_preResolveTarget (table : List (List Char × Nat)) (t : Target) :
    resolveTarget table (preResolve.preResolveTarget table t) = resolveTarget table t := by
  rw [preResolve.preResolveTarget]
  split
  next a ha => rw [ha]; rfl
  next => rfl

/-- An instruction line with its target written as an address is an instruction line of the same length that
resolves to the same instruction. -/
theorem preResolve_instr (table : List (List Char × Nat)) (a : AsmInstr) :
    ∃ b, preResolve table (.instr a) = .instr b ∧ b.opcode = a.opcode ∧
      resolveInstr table b = resolveInstr table a := by
  cases a with
  | plain i => exact ⟨_, rfl, rfl, rfl⟩
  | jmp t | cond rel r t | call t =>
    exact ⟨_, rfl, rfl, by simp only [resolveInstr, resolveTarget_preResolveTarget]⟩

theorem labelTable_map_preResolve (table : List (List Char × Nat)) (n : Nat) (items : List Item) :
    labelTable n (items.map (preResolve table)) = labelTable n items := by
  induction items generalizing n with
  | nil => rfl
  | cons item rest ih =>
    cases item with
    | label name => simp only [List.map_cons, preResolve, labelTable, ih]
    | instr a =>
      obtain ⟨b, hb, hop, -⟩ := preResolve_instr table a
      simp only [List.map_cons, hb, labelTable, hop, ih]

theorem resolveItems_map_preResolve (table : List (List Char × Nat)) (items : List Item) :
    resolveItems table (items.map (preResolve table)) = resolveItems table items := by
  induction items with
  | nil => rfl
  | cons item rest ih =>
    cases item with
    | label name => simp only [List.map_cons, preResolve, resolveItems, ih]
    | instr a =>
      obtain ⟨b, hb, -, hres⟩ := preResolve_instr table a
      simp only [List.map_cons, hb, resolveItems, hres, ih]

theorem assembleItems_map_preResolve (items : List Item) :
    assembleItems (items.map (preResolve (labelTable 0 items))) = assembleItems items := by
  simp only [assembleItems, programOf, labelTable_map_preResolve, resolveItems_map_preResolve]

/-- Settles O58: writing the labels as addresses changes neither pass, and the address cursor has passed the
instructions before a label when it comes to it. -/
theorem labelResolutionIsTransparent : Obligations.LabelResolutionIsTransparent := by
  unfold Obligations.LabelResolutionIsTransparent
  intro items bytes h
  obtain ⟨is, hprogram, -⟩ := assembleItems_eq_ok.1 h
  obtain ⟨hnodup, hres⟩ := programOf_eq_ok.1 hprogram
  refine ⟨(assembleItems_map_preResolve items).trans h, is, hprogram, ?_⟩
  rintro before after name rfl
  have hmem := mem_labelTable_append (n := 0) hres
  rw [Nat.zero_add] at hmem
  exact ⟨hmem, resolveTarget_of_mem hnodup hmem⟩

/-! ### The output bytes (R112, R116) -/

theorem emit_length (is : List Instr) : (emit is).length = (is.map Instr.len).sum := by
  simp only [emit, List.length_flatMap, encode_length]

theorem decode_emit {is : List Instr} {k : Nat} {i : Instr} (h : is[k]? = some i) :
    decode (emit is) ((is.take k).map Instr.len).sum = .ok i := by
  obtain ⟨hk, rfl⟩ := List.getElem?_eq_some_iff.1 h
  have hsplit : emit is = emit (is.take k) ++ encode is[k] ++ emit (is.drop (k + 1)) := by
    conv_lhs => rw [← List.take_append_drop k is, List.drop_eq_getElem_cons hk]
    simp only [emit, List.flatMap_append, List.flatMap_cons, List.append_assoc]
  rw [hsplit, ← emit_length]
  exact decode_encode _ _ _

/-- Settles O59: the bytes are the encodings one after another, and each decodes where it stands. -/
theorem assembledImageDecodesBack : Obligations.AssembledImageDecodesBack := by
  unfold Obligations.AssembledImageDecodesBack
  intro items bytes h
  obtain ⟨is, hprogram, rfl⟩ := assembleItems_eq_ok.1 h
  exact ⟨is, hprogram, emit_length is, fun _ _ => decode_emit⟩

/-! ### Errors stop the whole assembly (R113, R114) -/

/-- Where the lines of a text are read without an error, every line that is not empty is. -/
theorem itemOf_ok_of_mem {lines : List (List Char)} {items : List Item} {line first : List Char}
    {more : List (List Char)} (h : itemsOf lines = .ok items) (hmem : line ∈ lines)
    (htokens : tokensOf line = first :: more) : ∃ item, itemOf first more = .ok item := by
  induction lines generalizing items with
  | nil => cases hmem
  | cons l rest ih =>
    rw [itemsOf] at h
    rcases List.mem_cons.1 hmem with rfl | hrest
    · simp only [htokens, except_bind_eq_ok] at h
      obtain ⟨item, hitem, -⟩ := h
      exact ⟨item, hitem⟩
    · split at h
      next => exact ih h hrest
      next =>
        simp only [except_bind_eq_ok] at h
        obtain ⟨_, -, tail, htail, -⟩ := h
        exact ih htail hrest

theorem resolveInstr_ok_of_mem {table : List (List Char × Nat)} {items : List Item} {is : List Instr}
    {a : AsmInstr} (h : resolveItems table items = .ok is) (hmem : .instr a ∈ items) :
    ∃ i, resolveInstr table a = .ok i := by
  induction items generalizing is with
  | nil => cases hmem
  | cons item rest ih =>
    cases item with
    | label name => exact ih h (by simpa using hmem)
    | instr b =>
      simp only [resolveItems, except_bind_eq_ok] at h
      obtain ⟨i, hi, js, hjs, -⟩ := h
      rcases List.mem_cons.1 hmem with hab | hrest
      · cases hab; exact ⟨i, hi⟩
      · exact ih hjs hrest

theorem label_mem_of_mem_labelTable {n a : Nat} {items : List Item} {name : List Char}
    (h : (name, a) ∈ labelTable n items) : .label name ∈ items := by
  induction items generalizing n with
  | nil => cases h
  | cons item rest ih =>
    cases item with
    | label other =>
      rcases List.mem_cons.1 h with heq | hrest
      · cases heq; exact List.mem_cons_self
      · exact List.mem_cons_of_mem _ (ih hrest)
    | instr b => exact List.mem_cons_of_mem _ (ih h)

theorem mem_of_resolveTarget {table : List (List Char × Nat)} {name : List Char} {v : Word}
    (h : resolveTarget table (.label name) = .ok v) : ∃ a, (name, a) ∈ table := by
  simp only [resolveTarget] at h
  split at h
  next e he =>
    obtain rfl : e.1 = name := by simpa using List.find?_some he
    exact ⟨e.2, List.mem_of_find?_eq_some he⟩
  next => cases h

/-- An instruction line that resolves has a target that does. -/
theorem resolveTarget_ok_of_resolveInstr {table : List (List Char × Nat)} {a : AsmInstr} {t : Target} {i : Instr}
    (ha : a = .jmp t ∨ a = .call t ∨ ∃ rel r, a = .cond rel r t) (h : resolveInstr table a = .ok i) :
    ∃ v, resolveTarget table t = .ok v := by
  rcases ha with rfl | rfl | ⟨rel, r, rfl⟩ <;>
  · obtain ⟨v, hv, -⟩ := except_bind_eq_ok.1 h
    exact ⟨v, hv⟩

/-- Settles O60: an assembly that succeeds has read every line and found every target in its label table, which
holds only labels that a line defines. -/
theorem badLineMakesNoProgram : Obligations.BadLineMakesNoProgram := by
  unfold Obligations.BadLineMakesNoProgram
  constructor
  · intro before after line first more e bytes htokens hbad h
    obtain ⟨items, hitems, -⟩ := except_bind_eq_ok.1 h
    obtain ⟨item, hgood⟩ := itemOf_ok_of_mem hitems (by simp) htokens
    rw [hbad] at hgood
    cases hgood
  · intro items name a bytes hmem hundefined htarget h
    obtain ⟨is, hprogram, -⟩ := assembleItems_eq_ok.1 h
    obtain ⟨-, hres⟩ := programOf_eq_ok.1 hprogram
    obtain ⟨i, hi⟩ := resolveInstr_ok_of_mem hres hmem
    obtain ⟨v, hv⟩ := resolveTarget_ok_of_resolveInstr htarget hi
    obtain ⟨addr, haddr⟩ := mem_of_resolveTarget hv
    exact hundefined (label_mem_of_mem_labelTable haddr)

end Sys2Proof.Machine
end

section
/-! The step (40_execution_cycle.md R131 to R140, R145): what it answers in each run state, and where it leaves
IP. -/

namespace Sys2Proof.Machine

/-! ### What a step answers (R131, R145; 60_exceptions.md R250) -/

/-- An instruction's own faults are next states too, so `exec` always answers one. -/
theorem exec_next (i : Instr) (s : State) : ∃ t, exec i s = .next t := by
  rw [exec_eq]
  exact execute_next _ _ s

theorem step_of_decode_ok {s : State} {i : Instr} (hrun : s.run = .running)
    (h : decode s.prog (getReg s .ip).toNat = .ok i) : step s = exec i s := by
  simp only [step, hrun, fetchInstr, h]

theorem step_of_decode_error {s : State} {f : FaultCause} (hrun : s.run = .running)
    (h : decode s.prog (getReg s .ip).toNat = .error f) : step s = .next (raiseFault s f) := by
  simp only [step, hrun, fetchInstr, h]

/-- Settles O29: RUN and then the decoded bytes decide what a step is; that the instruction is well formed is not
needed. -/
theorem stepRunsDecodedInstruction : Obligations.StepRunsDecodedInstruction := by
  unfold Obligations.StepRunsDecodedInstruction
  exact fun _ _ hrun _ hdecode => step_of_decode_ok hrun hdecode

/-- Settles O31: a halted machine stays, a fault of decoding is taken, and an instruction answers a next state. -/
theorem everyStepAnswersNext : Obligations.EveryStepAnswersNext := by
  unfold Obligations.EveryStepAnswersNext
  intro s
  cases hrun : s.run with
  | halted => exact ⟨s, step_halted hrun⟩
  | running =>
    cases hdecode : decode s.prog (getReg s .ip).toNat with
    | error f => exact ⟨_, step_of_decode_error hrun hdecode⟩
    | ok i => rw [step_of_decode_ok hrun hdecode]; exact exec_next i s

/-! ### A halted machine (R131, R139) -/

@[simp] theorem stillRunning_eq_true {t : State} : stillRunning t = true ↔ t.run = .running :=
  decide_eq_true_iff

theorem stillRunning_of_halted {t : State} (h : t.run = .halted) : stillRunning t = false := by
  simp only [stillRunning, h, reduceCtorEq, decide_false]

/-- A run whose first step answers a next state goes on from there. -/
theorem run_succ_of_step {M : Host.Core} {s t : M.State} (h : M.step s = .next t) (n : Nat) :
    M.run (n + 1) s = M.run n t := by
  simp only [Host.Core.run, h]

theorem run_of_halted {s : State} (h : s.run = .halted) (n : Nat) :
    Host.Core.run Sys2Proof.core n s = .next s := by
  induction n with
  | zero => rfl
  | succ n ih => exact (run_succ_of_step (M := Sys2Proof.core) (step_halted h) n).trans ih

/-- Settles O30: one step leaves the state, so any number does. -/
theorem haltedStepChangesNothing : Obligations.HaltedStepChangesNothing := by
  unfold Obligations.HaltedStepChangesNothing
  exact fun s h => ⟨step_halted h, stillRunning_of_halted h, run_of_halted h⟩

/-! ### Faults of the fetch at IP (R132; 60_exceptions.md R246, R247) -/

theorem decode_of_le {prog : List Byte} {pc0 : Nat} (h : prog.length ≤ pc0) :
    decode prog pc0 = .error (.progOutOfBounds pc0 1) := by
  have hfetch : fetchByte prog pc0 0 = .error (.progOutOfBounds pc0 1) := fetchByte_of_le h
  simp only [decode, hfetch, except_error_bind]

theorem decode_of_unknown {prog : List Byte} {pc0 : Nat} {b : Byte} (hb : prog[pc0]? = some b)
    (h : 27 < b.toNat) : decode prog pc0 = .error (.unknownOpcode pc0 b) := by
  have hfetch : fetchByte prog pc0 0 = .ok b := fetchByte_of_some hb
  simp only [decode, hfetch, except_ok_bind, opcodeOfByte_eq_none.2 h]

/-- Settles O34: the step takes whatever fault decoding reports, and these two are what decoding reports. -/
theorem badFetchFaults : Obligations.BadFetchFaults := by
  unfold Obligations.BadFetchFaults
  intro s hrun
  exact ⟨fun _ => step_of_decode_error hrun,
    fun hout => step_of_decode_error hrun (decode_of_le hout),
    fun _ hb hunknown => step_of_decode_error hrun (decode_of_unknown hb hunknown)⟩

/-! ### IP after a completed step (R135, R140; 10_state.md R37) -/

theorem isModified_ip_advance (op : Opcode) (s : State) : isModified (advance op s) .ip = true := by
  rw [isModified_advance, if_pos rfl]

/-- A completed instruction keeps the mark the advance made, and IP too where it does not write IP. -/
theorem ip_of_effectOf {i : Instr} {s t : State} (h : effectOf i (advance i.opcode s) = .ok t) :
    isModified t .ip = true ∧
      (.ip ∉ writtenRegs i → getReg t .ip = getReg s .ip + BitVec.ofNat 32 i.len) := by
  refine ⟨effectOf_keeps_marks h (isModified_ip_advance _ s), fun hip => ?_⟩
  obtain ⟨-, -, -, -, -, -, hframe⟩ := effectOf_next h
  rw [(hframe .ip hip).1, getReg_advance, if_pos rfl, Instr.len]

/-- Settles O35: a step that records no fault has completed the instruction it decoded. -/
theorem completedStepAdvancesIp : Obligations.CompletedStepAdvancesIp := by
  unfold Obligations.CompletedStepAdvancesIp
  intro s t i hrun hdecode h hclean
  rcases step_running_cases hrun h with ⟨f, rfl, -⟩ | ⟨j, hj, hdone⟩
  · cases hclean
  · obtain rfl : i = j := Except.ok.inj (hdecode.symm.trans hj)
    rw [encode_length]
    exact ip_of_effectOf hdone

/-- What the encoder writes for an instruction is its encoding: it decodes wherever it stands. -/
theorem hasEncoding_of_encode_eq {i : Instr} {bs : List Byte} (h : encode i = bs) : HasEncoding i bs := by
  subst h
  exact ⟨rfl, fun _ _ => decode_eq_ok.2⟩

theorem exec_halt (s : State) : exec .halt s = .next { advance .halt s with run := .halted } := by
  rw [exec_eq]
  exact execute_of_ok rfl

/-- Settles O1: HALT is the advance of IP, then RUN. -/
theorem haltStopsCleanly : Obligations.HaltStopsCleanly := by
  unfold Obligations.HaltStopsCleanly
  intro s
  refine ⟨hasEncoding_of_encode_eq rfl, fun _ => rfl, _, exec_halt s, rfl, rfl,
    getReg_setReg_same s .ip _, fun _ => rfl, fun r hr => ?frame, fun r hr => ?marks, rfl, rfl, rfl⟩
  case frame =>
    have hne : r ≠ .ip := by simpa using hr
    exact ⟨getReg_setReg_other s _ hne, isModified_setReg_other s (getReg s .ip + 1) hne⟩
  case marks =>
    obtain rfl : r = .ip := by simpa using hr
    exact isModified_ip_advance .halt s

end Sys2Proof.Machine
end

section
/-! An instruction cut off by the end of the image (30_encoding.md R82; 40_execution_cycle.md R133): all operands
are fetched in order before any register check, so the fault is that of the first fetch that does not fit. -/

namespace Sys2Proof.Machine

/-- The image ends inside the operand of width `w` at offset `k`, one of a list of fetches. -/
def CutAt (prog : List Byte) (pc0 : Nat) (fetches : List (Nat × Nat)) (k w : Nat) : Prop :=
  (k, w) ∈ fetches ∧ pc0 + k ≤ prog.length ∧ prog.length < pc0 + k + w

section
variable {prog : List Byte} {pc0 k w : Nat}

theorem not_cutAt_nil : ¬ CutAt prog pc0 [] k w := by simp [CutAt]

/-- Of fetches in rising order, the first is cut off, or it fits and a later one is cut off. -/
theorem CutAt.cons_cases {j n : Nat} {fetches : List (Nat × Nat)}
    (h : CutAt prog pc0 ((j, n) :: fetches) k w) (hrising : ∀ p ∈ fetches, j + n ≤ p.1) :
    (k = j ∧ w = n ∧ prog.length < pc0 + j + n) ∨
      (pc0 + j + n ≤ prog.length ∧ CutAt prog pc0 fetches k w) := by
  obtain ⟨hmem, hin, hout⟩ := h
  rcases List.mem_cons.1 hmem with heq | hmem
  · cases heq; exact .inl ⟨rfl, rfl, hout⟩
  · have hle : j + n ≤ k := hrising _ hmem
    exact .inr ⟨by omega, hmem, hin, hout⟩

/-- A byte fetch reports the cut, if what follows it reports a cut among the later operands. -/
theorem fetchByte_bind_of_cutAt {j : Nat} {fetches : List (Nat × Nat)}
    {rest : Byte → Except FaultCause Instr} (h : CutAt prog pc0 ((j, 1) :: fetches) k w)
    (hrising : ∀ p ∈ fetches, j + 1 ≤ p.1)
    (hrest : ∀ b, CutAt prog pc0 fetches k w → rest b = .error (.progOutOfBounds (pc0 + k) w)) :
    (fetchByte prog pc0 j >>= rest) = .error (.progOutOfBounds (pc0 + k) w) := by
  rcases h.cons_cases hrising with ⟨rfl, rfl, hout⟩ | ⟨hfit, hlater⟩
  · rw [fetchByte_of_le (by omega), except_error_bind]
  · obtain ⟨b, hb⟩ := exists_byte_of_lt (show pc0 + j < prog.length by omega)
    rw [fetchByte_of_some hb, except_ok_bind, hrest b hlater]

/-- The same for a word fetch. -/
theorem fetchWord_bind_of_cutAt {j : Nat} {fetches : List (Nat × Nat)}
    {rest : Word → Except FaultCause Instr} (h : CutAt prog pc0 ((j, 4) :: fetches) k w)
    (hrising : ∀ p ∈ fetches, j + 4 ≤ p.1)
    (hrest : ∀ v, CutAt prog pc0 fetches k w → rest v = .error (.progOutOfBounds (pc0 + k) w)) :
    (fetchWord prog pc0 j >>= rest) = .error (.progOutOfBounds (pc0 + k) w) := by
  rcases h.cons_cases hrising with ⟨rfl, rfl, hout⟩ | ⟨hfit, hlater⟩
  · rw [fetchWord_eq_error.2 ⟨hout, rfl⟩, except_error_bind]
  · obtain ⟨v, hv⟩ := exists_fetchWord hfit
    rw [hv, except_ok_bind, hrest v hlater]

/-- The fetch of the last operand: what follows it is never reached. -/
theorem fetchByte_bind_of_lastCut {j : Nat} {rest : Byte → Except FaultCause Instr}
    (h : CutAt prog pc0 [(j, 1)] k w) :
    (fetchByte prog pc0 j >>= rest) = .error (.progOutOfBounds (pc0 + k) w) :=
  fetchByte_bind_of_cutAt h (by simp) fun _ hnil => absurd hnil not_cutAt_nil

theorem fetchWord_bind_of_lastCut {j : Nat} {rest : Word → Except FaultCause Instr}
    (h : CutAt prog pc0 [(j, 4)] k w) :
    (fetchWord prog pc0 j >>= rest) = .error (.progOutOfBounds (pc0 + k) w) :=
  fetchWord_bind_of_cutAt h (by simp) fun _ hnil => absurd hnil not_cutAt_nil

/-! ### The fetches of each shape of operands (R82) -/

theorem decodeR_of_cutAt (mk : Reg → Instr) (h : CutAt prog pc0 [(1, 1)] k w) :
    decodeR mk prog pc0 = .error (.progOutOfBounds (pc0 + k) w) :=
  fetchByte_bind_of_lastCut h

theorem decodeRR_of_cutAt (mk : Reg → Reg → Instr) (h : CutAt prog pc0 [(1, 1), (2, 1)] k w) :
    decodeRR mk prog pc0 = .error (.progOutOfBounds (pc0 + k) w) :=
  fetchByte_bind_of_cutAt h (by decide) fun _ h => fetchByte_bind_of_lastCut h

theorem decodeRRR_of_cutAt (mk : Reg → Reg → Reg → Instr)
    (h : CutAt prog pc0 [(1, 1), (2, 1), (3, 1)] k w) :
    decodeRRR mk prog pc0 = .error (.progOutOfBounds (pc0 + k) w) :=
  fetchByte_bind_of_cutAt h (by decide) fun _ h =>
  fetchByte_bind_of_cutAt h (by decide) fun _ h => fetchByte_bind_of_lastCut h

theorem decodeW_of_cutAt (mk : Word → Instr) (h : CutAt prog pc0 [(1, 4)] k w) :
    decodeW mk prog pc0 = .error (.progOutOfBounds (pc0 + k) w) :=
  fetchWord_bind_of_lastCut h

theorem decodeWR_of_cutAt (mk : Word → Reg → Instr) (h : CutAt prog pc0 [(1, 4), (5, 1)] k w) :
    decodeWR mk prog pc0 = .error (.progOutOfBounds (pc0 + k) w) :=
  fetchWord_bind_of_cutAt h (by decide) fun _ h => fetchByte_bind_of_lastCut h

theorem decodeRW_of_cutAt (mk : Reg → Word → Instr) (h : CutAt prog pc0 [(1, 1), (2, 4)] k w) :
    decodeRW mk prog pc0 = .error (.progOutOfBounds (pc0 + k) w) :=
  fetchByte_bind_of_cutAt h (by decide) fun _ h => fetchWord_bind_of_lastCut h

theorem decodeWW_of_cutAt (mk : Word → Word → Instr) (h : CutAt prog pc0 [(1, 4), (5, 4)] k w) :
    decodeWW mk prog pc0 = .error (.progOutOfBounds (pc0 + k) w) :=
  fetchWord_bind_of_cutAt h (by decide) fun _ h => fetchWord_bind_of_lastCut h

theorem decodeOperands_of_cutAt {op : Opcode} (h : CutAt prog pc0 (operandFetches op) k w) :
    decodeOperands op prog pc0 = .error (.progOutOfBounds (pc0 + k) w) := by
  cases op
  case pushReg | popReg | incReg | decReg => exact decodeR_of_cutAt _ h
  case movRegReg | addRegReg | subRegReg => exact decodeRR_of_cutAt _ h
  case addRegRegReg => exact decodeRRR_of_cutAt _ h
  case pushLit | incMem | decMem | jmp | call => exact decodeW_of_cutAt _ h
  case movLitReg | movMemReg | addLitReg | subLitReg => exact decodeWR_of_cutAt _ h
  case movRegMem | jmpNe | jmpEq | jmpGt | jmpLt | jmpGe | jmpLe => exact decodeRW_of_cutAt _ h
  case movLitMem | movMemMem => exact decodeWW_of_cutAt _ h
  case halt | ret => exact absurd h not_cutAt_nil

/-! ### Every cut-off instruction is cut inside an operand -/

theorem CutAt.cons {fetches : List (Nat × Nat)} (p : Nat × Nat) (h : CutAt prog pc0 fetches k w) :
    CutAt prog pc0 (p :: fetches) k w := by
  obtain ⟨hmem, hin, hout⟩ := h
  exact ⟨List.mem_cons_of_mem p hmem, hin, hout⟩

/-- An image that ends among operands that stand one after another ends inside one of them. -/
theorem exists_cutAt_operandFetchesFrom {j : Nat} {kinds : List OperandKind}
    (hin : pc0 + j ≤ prog.length)
    (hout : prog.length < pc0 + j + (kinds.map OperandKind.width).sum) :
    ∃ k w, CutAt prog pc0 (operandFetchesFrom j kinds) k w := by
  induction kinds generalizing j with
  | nil => simp only [List.map_nil, List.sum_nil] at hout; omega
  | cons o rest ih =>
    rw [List.map_cons, List.sum_cons] at hout
    by_cases hfit : pc0 + j + o.width ≤ prog.length
    · obtain ⟨k, w, h⟩ := ih (j := j + o.width) (by omega) (by omega)
      exact ⟨k, w, h.cons (j, o.width)⟩
    · exact ⟨j, o.width, List.mem_cons_self, hin, Nat.lt_of_not_le hfit⟩

end

/-- Settles O45: the fetches before the cut fit, so the operand that is cut off is the one reported. -/
theorem truncatedInstructionFaults : Obligations.TruncatedInstructionFaults := by
  unfold Obligations.TruncatedInstructionFaults
  intro prog pc0 op hop
  obtain ⟨hlt, -⟩ := List.getElem?_eq_some_iff.1 hop
  constructor
  · intro k w hmem hin hout
    rw [decode_of_opcode hop]
    exact decodeOperands_of_cutAt ⟨hmem, hin, hout⟩
  · intro hshort
    rw [Opcode.len, ← Nat.add_assoc] at hshort
    exact exists_cutAt_operandFetchesFrom hlt hshort

end Sys2Proof.Machine
end

section
/-! The run loops (40_execution_cycle.md R142, R143; 70_reset_and_hazards.md R291, R292). The states the DEBUG
loop's steps leave are a relation of their own; the loop, its snapshots and the NORMAL loop are each read off from
it by one induction. -/

namespace Sys2Proof.Machine

/-! ### One turn of each loop -/

theorem debugLoop_of_halted {s t : State} (hstep : debugStep s = .next t) (h : t.run = .halted) (n : Nat) :
    debugLoop (n + 1) s = .next (t, [snapshot t]) := by
  simp [debugLoop, hstep, h]

theorem debugLoop_of_running {s t u : State} {snaps : List Snapshot} {n : Nat}
    (hstep : debugStep s = .next t) (h : t.run = .running) (hrest : debugLoop n t = .next (u, snaps)) :
    debugLoop (n + 1) s = .next (u, snapshot t :: snaps) := by
  simp [debugLoop, hstep, h, hrest]

theorem runLoop_of_halted {s t : State} (hstep : step s = .next t) (h : t.run = .halted) (n : Nat) :
    runLoop (n + 1) s = .next t := by
  simp [runLoop, hstep, h]

theorem runLoop_of_running {s t : State} (hstep : step s = .next t) (h : t.run = .running) (n : Nat) :
    runLoop (n + 1) s = runLoop n t := by
  simp [runLoop, hstep, h]

/-! ### The steps of the DEBUG loop -/

/-- The DEBUG loop, allowed so many steps from a state, leaves these states one after another: it is out of steps,
or a step halts it, or it goes on. -/
inductive DebugMakes : Nat → State → List State → Prop
  | done (s : State) : DebugMakes 0 s []
  | stop {n : Nat} {s t : State} (hstep : debugStep s = .next t) (hrun : t.run = .halted) :
      DebugMakes (n + 1) s [t]
  | more {n : Nat} {s t : State} {made : List State} (hstep : debugStep s = .next t)
      (hrun : t.run = .running) (hrest : DebugMakes n t made) : DebugMakes (n + 1) s (t :: made)

theorem exists_debugMakes (n : Nat) (s : State) : ∃ made, DebugMakes n s made := by
  induction n generalizing s with
  | zero => exact ⟨[], .done s⟩
  | succ n ih =>
    obtain ⟨t, hstep⟩ : ∃ t, debugStep s = .next t := everyStepAnswersNext (resetModified s)
    cases hrun : t.run with
    | halted => exact ⟨[t], .stop hstep hrun⟩
    | running =>
      obtain ⟨made, hmade⟩ := ih t
      exact ⟨t :: made, .more hstep hrun hmade⟩

/-- The state the loop leaves: the last one a step left, or the one it began in. -/
def lastOf (s : State) (made : List State) : State := made.getLast?.getD s

@[simp] theorem lastOf_nil (s : State) : lastOf s [] = s := rfl

@[simp] theorem lastOf_cons (s t : State) (made : List State) : lastOf s (t :: made) = lastOf t made := by
  simp [lastOf, List.getLast?_cons]

section
variable {n : Nat} {s : State} {made : List State}

/-- The loop emits one snapshot of each state its steps leave, and no others (R292). -/
theorem DebugMakes.debugLoop_eq (h : DebugMakes n s made) :
    debugLoop n s = .next (lastOf s made, made.map snapshot) := by
  induction h with
  | done s => rfl
  | stop hstep hrun => exact debugLoop_of_halted hstep hrun _
  | more hstep hrun _ ih => rw [lastOf_cons]; exact debugLoop_of_running hstep hrun ih

/-- Each state is the step from the one before it with the modified bits cleared (R292). -/
theorem DebugMakes.step_eq (h : DebugMakes n s made) {k : Nat} {v w : State}
    (hv : (s :: made)[k]? = some v) (hw : made[k]? = some w) : step (resetModified v) = .next w := by
  induction h generalizing k with
  | done s => cases hw
  | stop hstep _ =>
    cases k with
    | zero => cases hv; cases hw; exact hstep
    | succ k => cases hw
  | more hstep _ _ ih =>
    cases k with
    | zero => cases hv; cases hw; exact hstep
    | succ k => exact ih hv hw

/-- The loop goes on only from a state that is Running (R143). -/
theorem DebugMakes.running (h : DebugMakes n s made) {k : Nat} {v : State}
    (hv : made[k]? = some v) (hk : k + 1 < made.length) : v.run = .running := by
  induction h generalizing k with
  | done s => cases hv
  | stop _ _ => simp at hk
  | more _ hrun _ ih =>
    cases k with
    | zero => cases hv; exact hrun
    | succ k => exact ih hv (Nat.lt_of_succ_lt_succ hk)

theorem DebugMakes.length_le (h : DebugMakes n s made) : made.length ≤ n := by
  induction h with
  | done s => exact Nat.le_refl 0
  | stop _ _ => exact Nat.succ_le_succ (Nat.zero_le _)
  | more _ _ _ ih => exact Nat.succ_le_succ ih

/-- The loop ends before its steps are used up only where the machine is Halted (R143). -/
theorem DebugMakes.halted_of_lt (h : DebugMakes n s made) (hlt : made.length < n) :
    ∃ v, made.getLast? = some v ∧ v.run = .halted := by
  induction h with
  | done s => cases hlt
  | stop _ hrun => exact ⟨_, rfl, hrun⟩
  | more _ _ _ ih =>
    obtain ⟨v, hlast, hrun⟩ := ih (Nat.lt_of_succ_lt_succ hlt)
    exact ⟨v, by rw [List.getLast?_cons, hlast]; rfl, hrun⟩

/-! ### The NORMAL loop beside it (R142) -/

theorem sameButModified_resetModified {s v : State} (h : SameButModified s v) :
    SameButModified (resetModified s) v := h

/-- The step the DEBUG loop makes, made by the NORMAL loop from a state that differs at most in its modified
bits, leaves one that differs at most in them and runs or is halted alike. -/
theorem exists_step_of_debugStep {s t v : State} (hsame : SameButModified s v)
    (hstep : debugStep s = .next t) : ∃ u, step v = .next u ∧ SameButModified t u ∧ u.run = t.run := by
  obtain ⟨t', u, ht, hu, hsame'⟩ := unseen_modified.step (sameButModified_resetModified hsame)
  obtain rfl : t' = t := Host.Outcome.next.inj (ht.symm.trans hstep)
  exact ⟨u, hu, hsame', unseen_modified.run hsame'⟩

/-- The NORMAL loop makes as many steps of the machine as the DEBUG loop, and ends in the same state but for the
modified bits. -/
theorem DebugMakes.runLoop_agrees (h : DebugMakes n s made) {v : State} (hsame : SameButModified s v) :
    ∃ u : State, runLoop n v = .next u ∧ SameButModified (lastOf s made) u ∧
      Host.Core.run Sys2Proof.core made.length v = .next u := by
  induction h generalizing v with
  | done s => exact ⟨v, rfl, hsame, rfl⟩
  | stop hstep hrun =>
    obtain ⟨u, hu, hsame', hrun'⟩ := exists_step_of_debugStep hsame hstep
    exact ⟨u, runLoop_of_halted hu (hrun'.trans hrun) _, hsame',
      run_succ_of_step (M := Sys2Proof.core) hu 0⟩
  | @more n s t made hstep hrun _ ih =>
    obtain ⟨u, hu, hsame', hrun'⟩ := exists_step_of_debugStep hsame hstep
    obtain ⟨w, hloop, hlast, hsteps⟩ := ih hsame'
    refine ⟨w, ?_, by rwa [lastOf_cons], ?_⟩
    · rw [runLoop_of_running hu (hrun'.trans hrun), hloop]
    · exact (run_succ_of_step (M := Sys2Proof.core) hu made.length).trans hsteps

end

/-- No number of steps clears a modified bit (10_state.md R37). -/
theorem run_keeps_marks {n : Nat} {s u : State} {r : Reg} (h : Host.Core.run Sys2Proof.core n s = .next u)
    (hr : isModified s r = true) : isModified u r = true :=
  run_keeps (M := Sys2Proof.core) (P := fun t : State => isModified t r = true)
    (fun _ _ => step_keeps_marks) h hr

/-! ### run, and what a snapshot holds (R142, R291) -/

theorem run_debug_of_debugLoop {n : Nat} {e : Word} {s t : State} {snaps : List Snapshot}
    (h : debugLoop n (start e .debug s) = .next (t, snaps)) : run n e .debug s = .next t := by
  simp only [run, loopOf, h]

theorem snapshot_mem_length (v : State) : (snapshot v).mem.length = v.memSize :=
  v.mem.readBytes_length 0 v.memSize

/-- Settles O56: the NORMAL loop follows the DEBUG loop step by step, since no step sees the modified bits. -/
theorem debugLoopAgreesWithNormal : Obligations.DebugLoopAgreesWithNormal := by
  unfold Obligations.DebugLoopAgreesWithNormal
  refine ⟨fun n s => ?loops, fun n e s => ⟨rfl, ?run⟩, fun v => ?snapshot⟩
  case loops =>
    obtain ⟨made, hmade⟩ := exists_debugMakes n s
    obtain ⟨u, hloop, hsame, hsteps⟩ := hmade.runLoop_agrees (v := s) rfl
    exact ⟨made, u, hmade.debugLoop_eq, hloop, hsame, fun _ _ _ => hmade.step_eq,
      fun _ _ => hmade.running, hmade.length_le, hmade.halted_of_lt, hsteps,
      fun _ => run_keeps_marks hsteps⟩
  case run =>
    obtain ⟨made, hmade⟩ := exists_debugMakes n (start e .debug s)
    exact ⟨_, _, hmade.debugLoop_eq, run_debug_of_debugLoop hmade.debugLoop_eq⟩
  case snapshot =>
    exact ⟨fun _ => ⟨rfl, rfl⟩, snapshot_mem_length v, fun _ => snapshot_mem_getElem? v, rfl, rfl⟩

end Sys2Proof.Machine
end

section
/-! PUSH and POP (41_stack.md): what a line and the bytes of each stand for, what each leaves, and that a row of
pops gives back what a row of pushes put on the stack (R159). -/

namespace Sys2Proof.Machine

/-! ### Lines and register ids (30_encoding.md R90, R108, R111) -/

theorem registerOf_regName (r : Reg) : registerOf (regName r) = .ok r := by
  cases r <;> rfl

/-- The instruction of a line that names no target needs no label's address. -/
theorem asmLine_of_select {name : List Char} {m : Mnemonic} {ops : List AsmOperand} {i : Instr}
    (hname : mnemonicOf name = .ok m) (hselect : selectInstr m ops = .ok (.plain i)) :
    AsmLine name ops i := by
  intro table
  simp only [AsmLineWith, hname, hselect, except_ok_bind, resolveInstr]

theorem selectInstr_push_register (r : Reg) :
    selectInstr .push [.bare (regName r)] = .ok (.plain (.pushReg r)) := by
  change (registerOf (regName r) >>= fun src => Except.ok (AsmInstr.plain (.pushReg src))) = _
  rw [registerOf_regName, except_ok_bind]

theorem selectInstr_pop_register (r : Reg) :
    selectInstr .pop [.bare (regName r)] = .ok (.plain (.popReg r)) := by
  change (registerOf (regName r) >>= fun dst => Except.ok (AsmInstr.plain (.popReg dst))) = _
  rw [registerOf_regName, except_ok_bind]

theorem BytesAt.getElem? {prog : List Byte} {a k : Nat} {bs : List Byte} (h : BytesAt prog a bs)
    (hk : k < bs.length) : prog[a + k]? = bs[k]? := by
  conv_rhs => rw [← h]
  rw [List.getElem?_take_of_lt hk, List.getElem?_drop]

/-- Bytes of an opcode's whole length whose first id above 7 is at offset `k` are rejected for that id. -/
theorem rejectsId_of_firstBad {op : Opcode} {bs : List Byte} {k : Nat} {id : Byte}
    (hlen : (opcodeByte op :: bs).length = op.len) (hk : k ∈ regOffsets op)
    (hid : (opcodeByte op :: bs)[k]? = some id) (hbad : 7 < id.toNat)
    (hgood : ∀ j ∈ regOffsets op, j < k →
      ∀ b : Byte, (opcodeByte op :: bs)[j]? = some b → b.toNat ≤ 7) :
    RejectsId (opcodeByte op :: bs) k id := by
  intro prog pc0 h
  obtain ⟨hin, -⟩ := List.getElem?_eq_some_iff.1 hid
  rw [decode_of_opcode (BytesAt_cons.1 h).1]
  refine decodeOperands_of_firstBadId (hlen ▸ BytesAt_length h (List.cons_ne_nil _ _))
    ⟨hk, (h.getElem? hin).trans hid, hbad, fun j hj hlt b hb => hgood j hj hlt b ?_⟩
  rw [← hb, h.getElem? (lt_trans hlt hin)]

/-- Where a register is the only operand, its id is the only one to check. -/
theorem rejectsId_of_soleRegister {op : Opcode} {id : Byte} (hop : op.operands = [.register])
    (hbad : 7 < id.toNat) : RejectsId [opcodeByte op, id] 1 id := by
  have hoffsets : regOffsets op = [1] := by rw [regOffsets, hop]; rfl
  refine rejectsId_of_firstBad (by rw [Opcode.len, hop]; rfl) ?_ rfl hbad ?_ <;> rw [hoffsets] <;> simp

/-! ### The frame of a completed instruction (40_execution_cycle.md R135; 10_state.md R37) -/

theorem sameRegsBut_of_effectOf {i : Instr} {s t : State} {changed : List Reg}
    (h : effectOf i (advance i.opcode s) = .ok t) (hip : .ip ∈ changed)
    (hwritten : ∀ r ∈ writtenRegs i, r ∈ changed) : SameRegsBut s t changed := by
  obtain ⟨-, -, -, -, -, -, hframe⟩ := effectOf_next h
  intro r hr
  have hne : r ≠ .ip := fun heq => hr (heq ▸ hip)
  obtain ⟨hval, hmod⟩ := hframe r fun hw => hr (hwritten r hw)
  rw [hval, hmod, getReg_advance, isModified_advance, if_neg hne, if_neg hne]
  exact ⟨rfl, rfl⟩

theorem sameControl_of_effectOf {i : Instr} {s t : State} (h : effectOf i (advance i.opcode s) = .ok t)
    (hi : i ≠ .halt) : SameControl s t := by
  obtain ⟨hsize, hprog, hfault, hmode, hrun, -⟩ := effectOf_next h
  rw [if_neg hi] at hrun
  exact ⟨hsize, hprog, hrun, hfault, hmode⟩

theorem getReg_sp_advance (op : Opcode) (s : State) : getReg (advance op s) .sp = getReg s .sp := rfl

/-! ### Both pushes (R156, R157) -/

theorem push_sameMemoryOutside {s t : State} {v : Word} (h : push s v = .ok t) :
    SameMemoryOutside s t (getReg s .sp - 4).toNat := by
  rw [push_eq] at h
  split at h
  next =>
    cases h
    exact fun b hb => s.mem.readByte_writeBytes_outside _ _ (by rwa [wordBytes_length])
  next => cases h

section
variable {s t : State} {i : Instr} {v : Word}

/-- Either push is the push of its word: a source register is read after the advance and before SP moves. -/
theorem effectOf_of_pushedWord (hv : pushedWord s i = some v) :
    effectOf i (advance i.opcode s) = push (advance i.opcode s) v := by
  cases i
  case pushLit => cases hv; rfl
  case pushReg src =>
    cases hv
    exact congrArg (push _) (getReg_advance .pushReg s src)
  all_goals cases hv

theorem writtenRegs_of_pushedWord (hv : pushedWord s i = some v) : writtenRegs i = [.sp] := by
  cases i
  case pushLit | pushReg => rfl
  all_goals cases hv

theorem pushesWord_of_effectOf (hv : pushedWord s i = some v)
    (h : effectOf i (advance i.opcode s) = .ok t) : PushesWord s t (BitVec.ofNat 32 i.len) v := by
  have hpush : push (advance i.opcode s) v = .ok t := effectOf_of_pushedWord hv ▸ h
  have hwritten := writtenRegs_of_pushedWord hv
  obtain ⟨-, hsp, hword⟩ := push_eq_ok hpush
  have houtside := push_sameMemoryOutside hpush
  rw [getReg_sp_advance] at hsp houtside
  obtain ⟨hipMark, hip⟩ := ip_of_effectOf h
  refine ⟨hsp ▸ hword, houtside, hsp, hip (by simp [hwritten]),
    sameRegsBut_of_effectOf h (by simp) (by simp [hwritten]), ?marks, sameControl_of_effectOf h ?notHalt⟩
  case marks =>
    have hspMark : isModified t .sp = true := by rw [push_next hpush]; exact isModified_setReg_same _ _ _
    simp [MarksModified, hspMark, hipMark]
  case notHalt =>
    rintro rfl
    cases hv

theorem exec_push_of_fits (hv : pushedWord s i = some v) (hfit : (getReg s .sp - 4).toNat + 4 ≤ s.memSize) :
    ∃ t, exec i s = .next t ∧ PushesWord s t (BitVec.ofNat 32 i.len) v := by
  have hpush := (effectOf_of_pushedWord hv).trans ((push_eq _ v).trans (if_pos hfit))
  exact ⟨_, (exec_eq i s).trans (execute_of_ok hpush), pushesWord_of_effectOf hv hpush⟩

theorem exec_push_of_overrun (hv : pushedWord s i = some v)
    (hout : s.memSize < (getReg s .sp - 4).toNat + 4) :
    TakesFault i s (.memOutOfBounds (getReg s .sp - 4).toNat 4) :=
  (exec_eq i s).trans <| execute_of_error <|
    (effectOf_of_pushedWord hv).trans ((push_eq _ v).trans (if_neg (Nat.not_le.2 hout)))

end

/-- Settles O2: PUSH_LIT is a push of its literal; below 4 the new SP wraps to an address no smaller memory has. -/
theorem pushLitStoresBelowSp : Obligations.PushLitStoresBelowSp := by
  unfold Obligations.PushLitStoresBelowSp
  intro lit s
  have hbytes : encode (.pushLit lit) = 0x01 :: bigEndian lit := congrArg (0x01 :: ·) (wordBytes_eq lit)
  have hwraps (hsize : s.memSize < 2 ^ 32) (hlow : (getReg s .sp).toNat < 4) :
      s.memSize < (getReg s .sp - 4).toNat + 4 := by
    have htop : (getReg s .sp - 4).toNat + 4 = 2 ^ 32 + (getReg s .sp).toNat := by bv_omega
    omega
  exact ⟨hasEncoding_of_encode_eq hbytes, asmLine_of_select rfl rfl, exec_push_of_fits rfl,
    exec_push_of_overrun rfl, fun hsize hlow => exec_push_of_overrun rfl (hwraps hsize hlow)⟩

/-- Settles O3: PUSH_REG is a push of its register as the operand reads it. -/
theorem pushRegStoresBelowSp : Obligations.PushRegStoresBelowSp := by
  unfold Obligations.PushRegStoresBelowSp
  intro src s
  exact ⟨hasEncoding_of_encode_eq rfl, asmLine_of_select rfl (selectInstr_push_register src),
    fun _ hid => rejectsId_of_soleRegister (op := .pushReg) rfl hid,
    exec_push_of_fits rfl, exec_push_of_overrun rfl⟩

/-! ### The pop (R158) -/

/-- What a completed POP_REG leaves: the word at SP in the register, SP above it and IP past the instruction
unless the register is the one or the other, and all else as it was. -/
def PopsWord (s t : State) (dst : Reg) : Prop :=
  getReg t dst = wordAt s (getReg s .sp).toNat ∧ (dst ≠ .sp → getReg t .sp = getReg s .sp + 4) ∧
    (dst ≠ .ip → getReg t .ip = getReg s .ip + 2) ∧ SameMemory s t ∧
    SameRegsBut s t [.sp, .ip, dst] ∧ MarksModified t [.sp, .ip, dst] ∧ SameControl s t

theorem popInto_eq_ok {s t : State} {dst : Reg} (h : popInto s dst = .ok t) :
    t = setReg (setReg s .sp (getReg s .sp + 4)) dst (wordAt s (getReg s .sp).toNat) := by
  rw [popInto_eq] at h
  split at h
  next => cases h; rfl
  next => cases h

theorem popsWord_of_effectOf {s t : State} {dst : Reg}
    (h : effectOf (.popReg dst) (advance .popReg s) = .ok t) : PopsWord s t dst := by
  have hval := popInto_eq_ok h
  obtain ⟨-, -, -, -, -, hmem, -⟩ := effectOf_next h
  obtain ⟨hipMark, hip⟩ := ip_of_effectOf h
  refine ⟨?dst, fun hsp => ?sp, fun hne => hip (by simp [writtenRegs, Ne.symm hne]),
    fun a => by rw [hmem rfl, advance_mem], sameRegsBut_of_effectOf h (by simp) (by simp [writtenRegs]), ?marks,
    sameControl_of_effectOf h (by simp)⟩
  case dst => rw [hval, getReg_setReg_same]; rfl
  case sp => rw [hval, getReg_setReg_other _ _ (Ne.symm hsp), getReg_setReg_same]; rfl
  case marks =>
    have hdstMark : isModified t dst = true := by rw [hval]; exact isModified_setReg_same _ _ _
    have hspMark : isModified t .sp = true := by
      rw [hval]; exact isModified_setReg_of (isModified_setReg_same _ _ _)
    simp [MarksModified, hdstMark, hspMark, hipMark]

theorem exec_popReg_of_fits {s : State} (dst : Reg) (hfit : (getReg s .sp).toNat + 4 ≤ s.memSize) :
    ∃ t, exec (.popReg dst) s = .next t ∧ PopsWord s t dst := by
  have hpop := (popInto_eq (advance .popReg s) dst).trans (if_pos hfit)
  exact ⟨_, (exec_eq _ s).trans (execute_of_ok hpop), popsWord_of_effectOf hpop⟩

theorem exec_popReg_of_overrun {s : State} (dst : Reg) (hout : s.memSize < (getReg s .sp).toNat + 4) :
    TakesFault (.popReg dst) s (.memOutOfBounds (getReg s .sp).toNat 4) :=
  (exec_eq _ s).trans <| execute_of_error <|
    (popInto_eq (advance .popReg s) dst).trans (if_neg (Nat.not_le.2 hout))

/-- Settles O4: POP_REG writes SP and then its register, so into SP the word stays. -/
theorem popRegLoadsFromSp : Obligations.PopRegLoadsFromSp := by
  unfold Obligations.PopRegLoadsFromSp
  intro dst s
  exact ⟨hasEncoding_of_encode_eq rfl, asmLine_of_select rfl (selectInstr_pop_register dst),
    fun _ hid => rejectsId_of_soleRegister (op := .popReg) rfl hid,
    exec_popReg_of_fits dst, exec_popReg_of_overrun dst⟩

/-! ### Rows of pushes and of pops (R159)

The stack between SP and a fixed top is a list of words: a push puts its word in front of it and a pop takes
the front off. -/

/-- From SP up to `top`, inside memory, stand these words, the nearest first. -/
def StackHolds (top : Word) (s : State) (ws : List Word) : Prop :=
  (getReg s .sp).toNat + 4 * ws.length = top.toNat ∧ top.toNat ≤ s.memSize ∧
    ∀ k w, ws[k]? = some w → wordAt s ((getReg s .sp).toNat + 4 * k) = w

section
variable {top : Word} {s t : State} {ws : List Word}

theorem stackHolds_nil (h : (getReg s .sp).toNat ≤ s.memSize) : StackHolds (getReg s .sp) s [] :=
  ⟨rfl, h, by simp⟩

theorem StackHolds.sp_eq_top (h : StackHolds top t []) : getReg t .sp = top :=
  BitVec.eq_of_toNat_eq h.1

theorem StackHolds.push {v len : Word} (h : StackHolds top s ws) (hroom : 4 ≤ (getReg s .sp).toNat)
    (hpush : PushesWord s t len v) : StackHolds top t (v :: ws) := by
  obtain ⟨htop, hsize, hwords⟩ := h
  obtain ⟨hword, houtside, hsp, -, -, -, hsame, -⟩ := hpush
  have hlow : (getReg s .sp - 4).toNat = (getReg s .sp).toNat - 4 := by bv_omega
  rw [hlow] at hword houtside
  rw [StackHolds, hsp, hlow, hsame]
  refine ⟨by simp only [List.length_cons]; omega, hsize, fun k w hk => ?_⟩
  cases k with
  | zero => cases hk; exact hword
  | succ k =>
    have haddr : (getReg s .sp).toNat - 4 + 4 * (k + 1) = (getReg s .sp).toNat + 4 * k := by omega
    rw [haddr, wordAt_congr fun c _ _ => houtside c (.inr (by omega))]
    exact hwords k w hk

theorem StackHolds.pop {w : Word} {dst : Reg} (h : StackHolds top s (w :: ws)) (hdst : dst ≠ .sp)
    (hpop : PopsWord s t dst) : getReg t dst = w ∧ StackHolds top t ws := by
  obtain ⟨htop, hsize, hwords⟩ := h
  obtain ⟨hval, hsp, -, hmem, -, -, hsame, -⟩ := hpop
  rw [List.length_cons] at htop
  have hhigh : (getReg s .sp + 4).toNat = (getReg s .sp).toNat + 4 := by have := top.isLt; bv_omega
  refine ⟨hval.trans (hwords 0 w rfl), ?_⟩
  rw [StackHolds, hsp hdst, hhigh, hsame]
  refine ⟨by omega, hsize, fun k x hk => ?_⟩
  have haddr : (getReg s .sp).toNat + 4 + 4 * k = (getReg s .sp).toNat + 4 * (k + 1) := by omega
  rw [haddr, wordAt_congr fun c _ _ => hmem c]
  exact hwords (k + 1) x hk

end

theorem execAll_cons {i : Instr} {s t : State} (h : exec i s = .next t) (rest : List Instr) :
    execAll (i :: rest) s = execAll rest t := by
  simp only [execAll, h]

theorem pushedWords_cons {i : Instr} {s t : State} {v : Word} (hv : pushedWord s i = some v)
    (h : exec i s = .next t) (rest : List Instr) :
    pushedWords (i :: rest) s = v :: pushedWords rest t := by
  simp only [pushedWords, hv, h]

theorem exists_pushedWord {i : Instr} (h : isPush i = true) (s : State) : ∃ v, pushedWord s i = some v := by
  cases i
  case pushLit | pushReg => exact ⟨_, rfl⟩
  all_goals cases h

/-- Pushes with room below SP complete, and the last word pushed is in front. -/
theorem execAll_pushes {top : Word} {s : State} {ws : List Word} {pushes : List Instr}
    (hpush : ∀ i ∈ pushes, isPush i = true) (hroom : 4 * pushes.length ≤ (getReg s .sp).toNat)
    (h : StackHolds top s ws) :
    ∃ u, execAll pushes s = .next u ∧ (pushedWords pushes s).length = pushes.length ∧
      StackHolds top u ((pushedWords pushes s).reverse ++ ws) := by
  induction pushes generalizing s ws with
  | nil => exact ⟨s, rfl, rfl, h⟩
  | cons i rest ih =>
    rw [List.length_cons] at hroom
    obtain ⟨v, hv⟩ := exists_pushedWord (hpush i (by simp)) s
    have hlow : (getReg s .sp - 4).toNat = (getReg s .sp).toNat - 4 := by bv_omega
    have hfit : (getReg s .sp - 4).toNat + 4 ≤ s.memSize := by obtain ⟨htop, hsize, -⟩ := h; omega
    obtain ⟨t, ht, hpushed⟩ := exec_push_of_fits hv hfit
    have hsp : getReg t .sp = getReg s .sp - 4 := by obtain ⟨-, -, hsp, -⟩ := hpushed; exact hsp
    obtain ⟨u, hu, hlen, hholds⟩ := ih (fun j hj => hpush j (by simp [hj])) (by rw [hsp, hlow]; omega)
      (h.push (by omega) hpushed)
    refine ⟨u, (execAll_cons ht rest).trans hu, ?_, ?_⟩ <;> rw [pushedWords_cons hv ht]
    · rw [List.length_cons, List.length_cons, hlen]
    · simpa using hholds

/-- Pops of all that the stack holds complete and leave SP at the top. A register not popped keeps its value, and
the last pop of a register decides its value. -/
theorem execAll_pops {top : Word} {s : State} {ws : List Word} {pops : List Reg}
    (hsp : .sp ∉ pops) (hip : .ip ∉ pops) (hlen : ws.length = pops.length) (h : StackHolds top s ws) :
    ∃ t, execAll (pops.map .popReg) s = .next t ∧ StackHolds top t [] ∧
      (∀ r, r ∉ [.sp, .ip] → r ∉ pops → getReg t r = getReg s r) ∧
      ∀ k r, pops[k]? = some r → r ∉ pops.drop (k + 1) → ws[k]? = some (getReg t r) := by
  induction pops generalizing s ws with
  | nil =>
    obtain rfl := List.eq_nil_of_length_eq_zero hlen
    exact ⟨s, rfl, h, fun _ _ _ => rfl, by simp⟩
  | cons dst rest ih =>
    obtain ⟨w, ws, rfl⟩ := List.exists_cons_of_length_eq_add_one hlen
    simp only [List.mem_cons, not_or] at hsp hip
    obtain ⟨hspDst, hspRest⟩ := hsp
    obtain ⟨hipDst, hipRest⟩ := hip
    have hfit : (getReg s .sp).toNat + 4 ≤ s.memSize := by
      obtain ⟨htop, hsize, -⟩ := h
      rw [List.length_cons] at htop
      omega
    obtain ⟨u, hu, hpopped⟩ := exec_popReg_of_fits dst hfit
    obtain ⟨hval, hholds⟩ := h.pop (Ne.symm hspDst) hpopped
    obtain ⟨-, -, -, -, hframe, -⟩ := hpopped
    obtain ⟨t, ht, hempty, hkept, hlast⟩ := ih hspRest hipRest (by simpa using hlen) hholds
    refine ⟨t, (execAll_cons hu _).trans ht, hempty, fun r hr hnot => ?kept, fun k r hk hnot => ?last⟩
    case kept =>
      simp only [List.mem_cons, not_or] at hnot
      obtain ⟨hne, hnotRest⟩ := hnot
      rw [hkept r hr hnotRest]
      exact (hframe r (by simpa [hne] using hr)).1
    case last =>
      cases k with
      | zero =>
        cases hk
        rw [hkept dst (by simp [Ne.symm hspDst, Ne.symm hipDst]) hnot, hval]
        rfl
      | succ k => exact hlast k r hk hnot

/-- Settles O51: the pushes leave their words on the stack in reverse, and the pops take them off from the
front. -/
theorem pushesThenPopsAreLifo : Obligations.PushesThenPopsAreLifo := by
  unfold Obligations.PushesThenPopsAreLifo
  intro pushes pops s hpush hlen hsp hip hroom hsize
  obtain ⟨u, hu, hcount, hholds⟩ := execAll_pushes hpush hroom (stackHolds_nil hsize)
  rw [List.append_nil] at hholds
  obtain ⟨t, ht, hempty, -, hlast⟩ := execAll_pops hsp hip
    (by rw [List.length_reverse, hcount, hlen]) hholds
  refine ⟨u, t, hu, ht, hcount, hempty.sp_eq_top, fun k r hk hnot => ?_⟩
  have hin : k < (pushedWords pushes s).length := by
    rw [hcount, ← hlen]; exact (List.getElem?_eq_some_iff.1 hk).1
  rw [← hcount, ← List.getElem?_reverse hin]
  exact hlast k r hk hnot

end Sys2Proof.Machine
end

section
/-! MOV (42_mov.md): what the line and the bytes of each form stand for, and what each leaves. A form ends in one of
two effects, a word written to a register or a word stored in memory; the forms that load read their word first. -/

namespace Sys2Proof.Machine

/-! ### Lines (30_encoding.md R108, R111) -/

theorem registerOf_regName_bind {α : Type} (r : Reg) (f : Reg → Except AsmError α) :
    (registerOf (regName r) >>= f) = f r := by
  rw [registerOf_regName, except_ok_bind]

theorem selectInstr_mov_literal_register (lit : Word) (dst : Reg) :
    selectInstr .mov [.literal lit, .bare (regName dst)] = .ok (.plain (.movLitReg lit dst)) :=
  registerOf_regName_bind dst fun dst => .ok (AsmInstr.plain (.movLitReg lit dst))

theorem selectInstr_mov_register_register (src dst : Reg) :
    selectInstr .mov [.bare (regName src), .bare (regName dst)] = .ok (.plain (.movRegReg src dst)) :=
  (registerOf_regName_bind src fun src =>
      registerOf (regName dst) >>= fun dst => .ok (AsmInstr.plain (.movRegReg src dst))).trans
    (registerOf_regName_bind dst _)

theorem selectInstr_mov_memory_register (mem : Word) (dst : Reg) :
    selectInstr .mov [.memory mem, .bare (regName dst)] = .ok (.plain (.movMemReg mem dst)) :=
  registerOf_regName_bind dst fun dst => .ok (AsmInstr.plain (.movMemReg mem dst))

theorem selectInstr_mov_register_memory (src : Reg) (mem : Word) :
    selectInstr .mov [.bare (regName src), .memory mem] = .ok (.plain (.movRegMem src mem)) :=
  registerOf_regName_bind src fun src => .ok (AsmInstr.plain (.movRegMem src mem))

/-! ### Bytes and register ids (30_encoding.md R82, R90) -/

theorem wordBytes_eq_bigEndian (v : Word) : wordBytes v = bigEndian v := wordBytes_eq v

/-- The first register operand's id is the first to be checked. -/
theorem rejectsId_of_firstRegister {op : Opcode} {bs : List Byte} {k : Nat} {later : List Nat} {id : Byte}
    (hlen : (opcodeByte op :: bs).length = op.len) (hoffsets : regOffsets op = k :: later)
    (hrising : ∀ j ∈ later, k < j) (hid : (opcodeByte op :: bs)[k]? = some id) (hbad : 7 < id.toNat) :
    RejectsId (opcodeByte op :: bs) k id := by
  refine rejectsId_of_firstBad hlen (by rw [hoffsets]; exact List.mem_cons_self) hid hbad fun j hj hlt => ?_
  rw [hoffsets] at hj
  rcases List.mem_cons.1 hj with rfl | hj
  · exact absurd hlt (lt_irrefl j)
  · exact absurd hlt (lt_asymm (hrising j hj))

/-- Of two register operands, the second one's id is checked where the first one's is good. -/
theorem rejectsId_of_secondRegister {op : Opcode} {id : Byte} (hop : op.operands = [.register, .register])
    (src : Reg) (hbad : 7 < id.toNat) : RejectsId [opcodeByte op, regByte src, id] 2 id := by
  have hoffsets : regOffsets op = [1, 2] := by rw [regOffsets, hop]; rfl
  refine rejectsId_of_firstBad (by rw [Opcode.len, hop]; rfl) (by simp [hoffsets]) rfl hbad
    fun j hj hlt b hb => ?_
  obtain rfl : j = 1 := by rw [hoffsets] at hj; simp at hj; omega
  cases hb
  exact regByte_le src

/-! ### Effects (R135, R136; 60_exceptions.md R250) -/

theorem getReg_advance_eq_operandValue (op : Opcode) (s : State) (r : Reg) :
    getReg (advance op s) r = operandValue s (BitVec.ofNat 32 op.len) r := getReg_advance op s r

theorem takesFault_of_effectOf {i : Instr} {s : State} {f : FaultCause}
    (h : effectOf i (advance i.opcode s) = .error f) : TakesFault i s f :=
  (exec_eq i s).trans (execute_of_error h)

/-! ### A word written to a register -/

theorem writesReg_setReg_advance (op : Opcode) (s : State) (dst : Reg) (v : Word) :
    WritesReg s (setReg (advance op s) dst v) (BitVec.ofNat 32 op.len) dst v := by
  refine ⟨getReg_setReg_same _ dst v, fun hdst => ?ip, fun _ => rfl, fun r hr => ?frame, ?marks,
    rfl, rfl, rfl, rfl, rfl⟩
  case ip => rw [getReg_setReg_other _ v (Ne.symm hdst), getReg_advance, if_pos rfl]
  case frame =>
    obtain ⟨hdst, hip⟩ : r ≠ dst ∧ r ≠ .ip := by simpa using hr
    rw [getReg_setReg_other _ v hdst, isModified_setReg_other _ v hdst, getReg_advance, isModified_advance,
      if_neg hip, if_neg hip]
    exact ⟨rfl, rfl⟩
  case marks =>
    simp [MarksModified, isModified_setReg_same, isModified_setReg_of (isModified_ip_advance op s)]

theorem exec_of_setReg {i : Instr} {s : State} {dst : Reg} {v : Word}
    (h : effectOf i (advance i.opcode s) = .ok (setReg (advance i.opcode s) dst v)) :
    ∃ t, exec i s = .next t ∧ WritesReg s t (BitVec.ofNat 32 i.len) dst v :=
  ⟨_, (exec_eq i s).trans (execute_of_ok h), writesReg_setReg_advance i.opcode s dst v⟩

/-! ### A word stored in memory (20_memory.md R54, R57) -/

theorem storesWord_writeBytes_advance (op : Opcode) (s : State) (a : Nat) (v : Word) :
    StoresWord s { advance op s with mem := s.mem.writeBytes a (wordBytes v) } (BitVec.ofNat 32 op.len) a v := by
  refine ⟨wordAt_writeBytes_same _ _ a v, fun b hb => ?outside, getReg_setReg_same s .ip _, fun r hr => ?frame,
    fun r hr => ?marks, rfl, rfl, rfl, rfl, rfl⟩
  case outside => exact s.mem.readByte_writeBytes_outside a _ (by rwa [wordBytes_length])
  case frame =>
    have hip : r ≠ .ip := by simpa using hr
    exact ⟨getReg_setReg_other s _ hip, isModified_setReg_other s (getReg s .ip + BitVec.ofNat 32 op.len) hip⟩
  case marks =>
    obtain rfl : r = .ip := by simpa using hr
    exact isModified_ip_advance op s

section
variable {i : Instr} {s : State} {a : Nat} {v : Word}

theorem exec_store_of_fits (h : effectOf i (advance i.opcode s) = memWrite32 (advance i.opcode s) a v)
    (hfit : a + 4 ≤ s.memSize) :
    ∃ t, exec i s = .next t ∧ StoresWord s t (BitVec.ofNat 32 i.len) a v :=
  have hstore := h.trans ((memWrite32_eq _ a v).trans (if_pos hfit))
  ⟨_, (exec_eq i s).trans (execute_of_ok hstore), storesWord_writeBytes_advance i.opcode s a v⟩

theorem exec_store_of_overrun (h : effectOf i (advance i.opcode s) = memWrite32 (advance i.opcode s) a v)
    (hout : s.memSize < a + 4) : TakesFault i s (.memOutOfBounds a 4) :=
  takesFault_of_effectOf (h.trans ((memWrite32_eq _ a v).trans (if_neg (Nat.not_le.2 hout))))

end

/-! ### A word loaded first (20_memory.md R53, R57) -/

section
variable {α : Type} {s : State} {a : Nat} {f : Word → Except FaultCause α}

theorem memRead32_bind_of_fits (hfit : a + 4 ≤ s.memSize) : (memRead32 s a >>= f) = f (wordAt s a) := by
  rw [memRead32_eq, if_pos hfit, except_ok_bind]

theorem memRead32_bind_of_overrun (hout : s.memSize < a + 4) :
    (memRead32 s a >>= f) = .error (.memOutOfBounds a 4) := by
  rw [memRead32_eq, if_neg (Nat.not_le.2 hout), except_error_bind]

end

/-- The word MOV_MEM_MEM stores is read before any byte is written, so it is the word of the state before (R176). -/
theorem effectOf_movMemMem_of_fits {s : State} {srcmem : Word} (dstmem : Word)
    (hfit : srcmem.toNat + 4 ≤ s.memSize) :
    effectOf (.movMemMem srcmem dstmem) (advance .movMemMem s) =
      memWrite32 (advance .movMemMem s) dstmem.toNat (wordAt s srcmem.toNat) :=
  memRead32_bind_of_fits (s := advance .movMemMem s) hfit

/-! ### The six forms (R171 to R176) -/

/-- Settles O5: the effect of MOV_LIT_REG is one register write. -/
theorem movLitRegWritesLiteral : Obligations.MovLitRegWritesLiteral := by
  unfold Obligations.MovLitRegWritesLiteral
  intro lit dst s
  rw [← wordBytes_eq_bigEndian]
  exact ⟨hasEncoding_of_encode_eq rfl, asmLine_of_select rfl (selectInstr_mov_literal_register lit dst),
    fun _ hid => rejectsId_of_firstRegister (op := .movLitReg) rfl rfl (by decide) rfl hid, exec_of_setReg rfl⟩

/-- Settles O6: the effect of MOV_REG_REG is one register write, of the source as it reads after the advance. -/
theorem movRegRegCopies : Obligations.MovRegRegCopies := by
  unfold Obligations.MovRegRegCopies
  intro src dst s
  have heffect : effectOf (.movRegReg src dst) (advance .movRegReg s) =
      .ok (setReg (advance .movRegReg s) dst (operandValue s 3 src)) :=
    congrArg (fun v => Except.ok (setReg _ dst v)) (getReg_advance_eq_operandValue .movRegReg s src)
  exact ⟨hasEncoding_of_encode_eq rfl, asmLine_of_select rfl (selectInstr_mov_register_register src dst),
    fun _ _ ha => rejectsId_of_firstRegister (op := .movRegReg) rfl rfl (by decide) rfl ha,
    fun _ hb => rejectsId_of_secondRegister (op := .movRegReg) rfl src hb, exec_of_setReg heffect⟩

/-- Settles O7: the effect of MOV_MEM_REG is a checked load, then one register write. -/
theorem movMemRegLoads : Obligations.MovMemRegLoads := by
  unfold Obligations.MovMemRegLoads
  intro mem dst s
  rw [← wordBytes_eq_bigEndian]
  exact ⟨hasEncoding_of_encode_eq rfl, asmLine_of_select rfl (selectInstr_mov_memory_register mem dst),
    fun _ hid => rejectsId_of_firstRegister (op := .movMemReg) rfl rfl (by decide) rfl hid,
    fun hfit => exec_of_setReg (memRead32_bind_of_fits (s := advance .movMemReg s) hfit),
    fun hout => takesFault_of_effectOf (memRead32_bind_of_overrun (s := advance .movMemReg s) hout)⟩

/-- Settles O8: the effect of MOV_LIT_MEM is one checked store. -/
theorem movLitMemStores : Obligations.MovLitMemStores := by
  unfold Obligations.MovLitMemStores
  intro lit mem s
  rw [← wordBytes_eq_bigEndian, ← wordBytes_eq_bigEndian]
  exact ⟨hasEncoding_of_encode_eq rfl, asmLine_of_select rfl rfl, exec_store_of_fits rfl,
    exec_store_of_overrun rfl⟩

/-- Settles O9: the effect of MOV_REG_MEM is one checked store, of the source as it reads after the advance. -/
theorem movRegMemStores : Obligations.MovRegMemStores := by
  unfold Obligations.MovRegMemStores
  intro src mem s
  rw [← wordBytes_eq_bigEndian]
  have heffect : effectOf (.movRegMem src mem) (advance .movRegMem s) =
      memWrite32 (advance .movRegMem s) mem.toNat (operandValue s 6 src) :=
    congrArg (memWrite32 _ mem.toNat) (getReg_advance_eq_operandValue .movRegMem s src)
  exact ⟨hasEncoding_of_encode_eq rfl, asmLine_of_select rfl (selectInstr_mov_register_memory src mem),
    fun _ hid => rejectsId_of_firstRegister (op := .movRegMem) rfl rfl (by decide) rfl hid,
    exec_store_of_fits heffect, exec_store_of_overrun heffect⟩

/-- Settles O10: where the source fits, MOV_MEM_MEM is one checked store of the word read from it. -/
theorem movMemMemCopiesWholeWord : Obligations.MovMemMemCopiesWholeWord := by
  unfold Obligations.MovMemMemCopiesWholeWord
  intro srcmem dstmem s
  rw [← wordBytes_eq_bigEndian, ← wordBytes_eq_bigEndian]
  exact ⟨hasEncoding_of_encode_eq rfl, asmLine_of_select rfl rfl,
    fun hsrc => exec_store_of_fits (effectOf_movMemMem_of_fits dstmem hsrc),
    fun hout => takesFault_of_effectOf (memRead32_bind_of_overrun (s := advance .movMemMem s) hout),
    fun hsrc => exec_store_of_overrun (effectOf_movMemMem_of_fits dstmem hsrc)⟩

end Sys2Proof.Machine
end

section
/-! ADD, SUB, INC and DEC (43_arith.md): what the line and the bytes of each form stand for, and what each leaves. Every
form is one sum or one difference of words, put in a register or back where it was loaded from. -/

namespace Sys2Proof.Machine

/-! ### Lines (30_encoding.md R108, R111) -/

section
variable {name : List Char} {m : Mnemonic} {ops : List AsmOperand}

theorem asmLine_of_selects_register {mk : Reg → Instr} {r : Reg} (hname : mnemonicOf name = .ok m)
    (hselect : selectInstr m ops = registerOf (regName r) >>= fun r => .ok (.plain (mk r))) :
    AsmLine name ops (mk r) :=
  asmLine_of_select hname (hselect.trans (registerOf_regName_bind r _))

theorem asmLine_of_selects_two_registers {mk : Reg → Reg → Instr} {a b : Reg} (hname : mnemonicOf name = .ok m)
    (hselect : selectInstr m ops = registerOf (regName a) >>= fun a =>
      registerOf (regName b) >>= fun b => .ok (.plain (mk a b))) :
    AsmLine name ops (mk a b) :=
  asmLine_of_selects_register hname (hselect.trans (registerOf_regName_bind a _))

theorem asmLine_of_selects_three_registers {mk : Reg → Reg → Reg → Instr} {a b c : Reg}
    (hname : mnemonicOf name = .ok m)
    (hselect : selectInstr m ops = registerOf (regName a) >>= fun a =>
      registerOf (regName b) >>= fun b => registerOf (regName c) >>= fun c => .ok (.plain (mk a b c))) :
    AsmLine name ops (mk a b c) :=
  asmLine_of_selects_two_registers hname (hselect.trans (registerOf_regName_bind a _))

end

/-! ### Register ids (30_encoding.md R90) -/

theorem regOffsetsFrom_registers (k n : Nat) :
    regOffsetsFrom k (List.replicate n .register) = List.range' k n := by
  induction n generalizing k with
  | zero => rfl
  | succ n ih => exact congrArg (k :: ·) (ih (k + 1))

/-- Where every operand is a register, an id above 7 after good ones is reported, whatever the ids after it are. -/
theorem rejectsId_of_registers {op : Opcode} {good : List Reg} {id : Byte} {later : List Byte}
    (hop : op.operands = List.replicate (good.length + (1 + later.length)) .register) (hbad : 7 < id.toNat) :
    RejectsId (opcodeByte op :: (good.map regByte ++ id :: later)) (good.length + 1) id := by
  have hoffsets : regOffsets op = List.range' 1 (good.length + (1 + later.length)) := by
    rw [regOffsets, hop, regOffsetsFrom_registers]
  refine rejectsId_of_firstBad ?len ?offset (by simp) hbad fun j hj hlt b hb => ?good
  case len => simp [Opcode.len, hop, OperandKind.width]; omega
  case offset => rw [hoffsets, List.mem_range'_1]; omega
  case good =>
    rw [hoffsets, List.mem_range'_1] at hj
    obtain ⟨j, rfl⟩ := Nat.exists_eq_add_of_le' hj.1
    rw [List.getElem?_cons_succ, List.getElem?_append_left (by simpa using hlt), List.getElem?_map,
      Option.map_eq_some_iff] at hb
    obtain ⟨r, -, rfl⟩ := hb
    exact regByte_le r

/-! ### Sums and differences modulo `2^32` (R185) -/

theorem word_sub_eq_ofInt (a b : Word) : a - b = BitVec.ofInt 32 ((a.toNat : Int) - (b.toNat : Int)) := by
  apply BitVec.eq_of_toNat_eq
  rw [BitVec.toNat_sub, BitVec.toNat_ofInt]
  omega

section
variable {i : Instr} {s : State} {dst : Reg} {a b : Word}

theorem exec_of_setReg_add
    (h : effectOf i (advance i.opcode s) = .ok (setReg (advance i.opcode s) dst (a + b))) :
    ∃ t, exec i s = .next t ∧
      WritesReg s t (BitVec.ofNat 32 i.len) dst (BitVec.ofNat 32 (a.toNat + b.toNat)) :=
  BitVec.add_def a b ▸ exec_of_setReg h

theorem exec_of_setReg_sub
    (h : effectOf i (advance i.opcode s) = .ok (setReg (advance i.opcode s) dst (a - b))) :
    ∃ t, exec i s = .next t ∧
      WritesReg s t (BitVec.ofNat 32 i.len) dst (BitVec.ofInt 32 ((a.toNat : Int) - (b.toNat : Int))) :=
  word_sub_eq_ofInt a b ▸ exec_of_setReg h

end

/-! ### The register forms (R186 to R192) -/

/-- Settles O11: ADD_LIT_REG writes the sum of its register, as it reads after the advance, and its literal. -/
theorem addLitRegAdds : Obligations.AddLitRegAdds := by
  unfold Obligations.AddLitRegAdds
  intro lit dst s
  rw [← wordBytes_eq_bigEndian]
  have heffect : effectOf (.addLitReg lit dst) (advance .addLitReg s) =
      .ok (setReg (advance .addLitReg s) dst (operandValue s 6 dst + lit)) :=
    congrArg (fun v => Except.ok (setReg _ dst (v + lit))) (getReg_advance_eq_operandValue .addLitReg s dst)
  exact ⟨hasEncoding_of_encode_eq rfl, asmLine_of_selects_register rfl rfl,
    fun _ hid => rejectsId_of_firstRegister (op := .addLitReg) rfl rfl (by decide) rfl hid,
    exec_of_setReg_add heffect⟩

/-- Settles O12: SUB_LIT_REG writes its register, as it reads after the advance, less its literal. -/
theorem subLitRegSubtracts : Obligations.SubLitRegSubtracts := by
  unfold Obligations.SubLitRegSubtracts
  intro lit dst s
  rw [← wordBytes_eq_bigEndian]
  have heffect : effectOf (.subLitReg lit dst) (advance .subLitReg s) =
      .ok (setReg (advance .subLitReg s) dst (operandValue s 6 dst - lit)) :=
    congrArg (fun v => Except.ok (setReg _ dst (v - lit))) (getReg_advance_eq_operandValue .subLitReg s dst)
  exact ⟨hasEncoding_of_encode_eq rfl, asmLine_of_selects_register rfl rfl,
    fun _ hid => rejectsId_of_firstRegister (op := .subLitReg) rfl rfl (by decide) rfl hid,
    exec_of_setReg_sub heffect⟩

/-- Settles O13: ADD_REG_REG reads both registers after the advance and before its one write. -/
theorem addRegRegAdds : Obligations.AddRegRegAdds := by
  unfold Obligations.AddRegRegAdds
  intro src dst s
  have heffect : effectOf (.addRegReg src dst) (advance .addRegReg s) =
      .ok (setReg (advance .addRegReg s) dst (operandValue s 3 dst + operandValue s 3 src)) :=
    congrArg₂ (fun v w => Except.ok (setReg _ dst (v + w)))
      (getReg_advance_eq_operandValue .addRegReg s dst) (getReg_advance_eq_operandValue .addRegReg s src)
  exact ⟨hasEncoding_of_encode_eq rfl, asmLine_of_selects_two_registers rfl rfl,
    fun _ _ ha => rejectsId_of_firstRegister (op := .addRegReg) rfl rfl (by decide) rfl ha,
    fun _ hb => rejectsId_of_secondRegister (op := .addRegReg) rfl src hb, exec_of_setReg_add heffect⟩

/-- Settles O14: SUB_REG_REG reads both registers after the advance, the destination as the minuend. -/
theorem subRegRegSubtracts : Obligations.SubRegRegSubtracts := by
  unfold Obligations.SubRegRegSubtracts
  intro src dst s
  have heffect : effectOf (.subRegReg src dst) (advance .subRegReg s) =
      .ok (setReg (advance .subRegReg s) dst (operandValue s 3 dst - operandValue s 3 src)) :=
    congrArg₂ (fun v w => Except.ok (setReg _ dst (v - w)))
      (getReg_advance_eq_operandValue .subRegReg s dst) (getReg_advance_eq_operandValue .subRegReg s src)
  exact ⟨hasEncoding_of_encode_eq rfl, asmLine_of_selects_two_registers rfl rfl,
    fun _ _ ha => rejectsId_of_firstRegister (op := .subRegReg) rfl rfl (by decide) rfl ha,
    fun _ hb => rejectsId_of_secondRegister (op := .subRegReg) rfl src hb, exec_of_setReg_sub heffect⟩

/-- Settles O15: ADD_REG_REG_REG reads both sources after the advance; its three ids are checked in order. -/
theorem addRegRegRegAdds : Obligations.AddRegRegRegAdds := by
  unfold Obligations.AddRegRegRegAdds
  intro srcA srcB dst s
  have heffect : effectOf (.addRegRegReg srcA srcB dst) (advance .addRegRegReg s) =
      .ok (setReg (advance .addRegRegReg s) dst (operandValue s 4 srcA + operandValue s 4 srcB)) :=
    congrArg₂ (fun v w => Except.ok (setReg _ dst (v + w)))
      (getReg_advance_eq_operandValue .addRegRegReg s srcA) (getReg_advance_eq_operandValue .addRegRegReg s srcB)
  exact ⟨hasEncoding_of_encode_eq rfl, asmLine_of_selects_three_registers rfl rfl,
    fun _ b c => rejectsId_of_registers (op := .addRegRegReg) (good := []) (later := [b, c]) rfl,
    fun _ c => rejectsId_of_registers (op := .addRegRegReg) (good := [srcA]) (later := [c]) rfl,
    fun _ => rejectsId_of_registers (op := .addRegRegReg) (good := [srcA, srcB]) (later := []) rfl,
    exec_of_setReg_add heffect⟩

/-- Settles O16: INC_REG writes the sum of its register, as it reads after the advance, and one. -/
theorem incRegAddsOne : Obligations.IncRegAddsOne := by
  unfold Obligations.IncRegAddsOne
  intro reg s
  have heffect : effectOf (.incReg reg) (advance .incReg s) =
      .ok (setReg (advance .incReg s) reg (operandValue s 2 reg + 1)) :=
    congrArg (fun v => Except.ok (setReg _ reg (v + 1))) (getReg_advance_eq_operandValue .incReg s reg)
  exact ⟨hasEncoding_of_encode_eq rfl, asmLine_of_selects_register rfl rfl,
    fun _ hid => rejectsId_of_soleRegister (op := .incReg) rfl hid, exec_of_setReg_add heffect⟩

/-- Settles O17: DEC_REG writes its register, as it reads after the advance, less one. -/
theorem decRegSubtractsOne : Obligations.DecRegSubtractsOne := by
  unfold Obligations.DecRegSubtractsOne
  intro reg s
  have heffect : effectOf (.decReg reg) (advance .decReg s) =
      .ok (setReg (advance .decReg s) reg (operandValue s 2 reg - 1)) :=
    congrArg (fun v => Except.ok (setReg _ reg (v - 1))) (getReg_advance_eq_operandValue .decReg s reg)
  exact ⟨hasEncoding_of_encode_eq rfl, asmLine_of_selects_register rfl rfl,
    fun _ hid => rejectsId_of_soleRegister (op := .decReg) rfl hid, exec_of_setReg_sub heffect⟩

/-! ### The memory forms (R193, R194) -/

section
variable {i : Instr} {s : State} {mem : Word} {f : Word → Word}

theorem exec_update_of_fits
    (h : effectOf i (advance i.opcode s) = memRead32 (advance i.opcode s) mem.toNat >>= fun v =>
      memWrite32 (advance i.opcode s) mem.toNat (f v))
    (hfit : mem.toNat + 4 ≤ s.memSize) :
    ∃ t, exec i s = .next t ∧
      StoresWord s t (BitVec.ofNat 32 i.len) mem.toNat (f (wordAt s mem.toNat)) :=
  exec_store_of_fits (h.trans (memRead32_bind_of_fits (s := advance i.opcode s) hfit)) hfit

/-- Where the word does not fit, the load takes the fault, so the store is never made. -/
theorem exec_update_of_overrun
    (h : effectOf i (advance i.opcode s) = memRead32 (advance i.opcode s) mem.toNat >>= fun v =>
      memWrite32 (advance i.opcode s) mem.toNat (f v))
    (hout : s.memSize < mem.toNat + 4) : TakesFault i s (.memOutOfBounds mem.toNat 4) :=
  takesFault_of_effectOf (h.trans (memRead32_bind_of_overrun (s := advance i.opcode s) hout))

end

/-- Settles O18: INC_MEM stores the word it loads plus one, where it loaded it. -/
theorem incMemAddsOne : Obligations.IncMemAddsOne := by
  unfold Obligations.IncMemAddsOne
  intro mem s
  rw [← wordBytes_eq_bigEndian]
  have hsum : wordAt s mem.toNat + 1 = BitVec.ofNat 32 ((wordAt s mem.toNat).toNat + 1) :=
    BitVec.add_def _ 1
  rw [← hsum]
  exact ⟨hasEncoding_of_encode_eq rfl, asmLine_of_select rfl rfl,
    exec_update_of_fits (i := .incMem mem) (f := (· + 1)) rfl,
    exec_update_of_overrun (i := .incMem mem) (f := (· + 1)) rfl⟩

/-- Settles O19: DEC_MEM stores the word it loads less one, where it loaded it. -/
theorem decMemSubtractsOne : Obligations.DecMemSubtractsOne := by
  unfold Obligations.DecMemSubtractsOne
  intro mem s
  rw [← wordBytes_eq_bigEndian]
  have hdifference :
      wordAt s mem.toNat - 1 = BitVec.ofInt 32 (((wordAt s mem.toNat).toNat : Int) - 1) :=
    word_sub_eq_ofInt _ 1
  rw [← hdifference]
  exact ⟨hasEncoding_of_encode_eq rfl, asmLine_of_select rfl rfl,
    exec_update_of_fits (i := .decMem mem) (f := (· - 1)) rfl,
    exec_update_of_overrun (i := .decMem mem) (f := (· - 1)) rfl⟩

/-! ### The registers no rule names (10_state.md R22 to R27) -/

/-- Settles O36: a fault leaves every register, and a completed effect only those its rule lists and IP. -/
theorem onlyNamedRegistersChange : Obligations.OnlyNamedRegistersChange := by
  unfold Obligations.OnlyNamedRegistersChange
  intro i s t r h hip hr
  rw [exec_eq] at h
  rcases execute_cases h with hdone | ⟨f, -, rfl⟩
  · exact sameRegsBut_of_effectOf (changed := .ip :: writtenRegs i) hdone List.mem_cons_self
      (fun _ => List.mem_cons_of_mem _) r (List.not_mem_cons_of_ne_of_not_mem hip hr)
  · exact ⟨rfl, rfl⟩

end Sys2Proof.Machine
end

section
/-! JMP and the six conditional jumps (44_jump.md): what the line and the bytes of each stand for, and what each leaves.
A jump is one write of IP, of the target or of the address of the next instruction, and the six conditional jumps are
one instruction with a relation in it. -/

namespace Sys2Proof.Machine

/-! ### Lines with a target (30_encoding.md R110, R111, R113) -/

/-- A line that selects an instruction by its target stands for the instruction at the target's address, whether the
target is written as the address or as a label of it. -/
theorem asmTargetLine_of_select {name : List Char} {m : Mnemonic} {ops : List AsmOperand} {line : Target → AsmInstr}
    {mk : Word → Instr} (hname : mnemonicOf name = .ok m)
    (hselect : ∀ o, selectInstr m (ops ++ [o]) = targetOf o >>= fun t => .ok (line t))
    (hresolve : ∀ table t, resolveInstr table (line t) = resolveTarget table t >>= fun a => .ok (mk a))
    (target : Word) : AsmTargetLine name ops target (mk target) := by
  have hform {o : AsmOperand} {t : Target} (htarget : targetOf o = .ok t) {table : List (List Char × Nat)}
      (haddr : resolveTarget table t = .ok target) : AsmLineWith table name (ops ++ [o]) (mk target) := by
    simp only [AsmLineWith, hname, hselect, htarget, hresolve, haddr, except_ok_bind]
  exact ⟨fun _ => hform rfl rfl, fun _ _ => hform rfl⟩

/-! ### A jump is one write of IP (R205; 10_state.md R37) -/

theorem advance_eq_setReg_ip (op : Opcode) (s : State) :
    advance op s = setReg s .ip (getReg s .ip + BitVec.ofNat 32 op.len) := rfl

theorem setReg_ip_advance (op : Opcode) (s : State) (a : Word) :
    setReg (advance op s) .ip a = setReg s .ip a := rfl

theorem movesIp_setReg_ip (s : State) (a : Word) : MovesIp s (setReg s .ip a) a := by
  refine ⟨getReg_setReg_same s .ip a, fun _ => rfl, fun r hr => ?frame, fun r hr => ?marks, rfl, rfl, rfl, rfl, rfl⟩
  case frame =>
    have hip : r ≠ .ip := by simpa using hr
    exact ⟨getReg_setReg_other s a hip, isModified_setReg_other s a hip⟩
  case marks =>
    obtain rfl : r = .ip := by simpa using hr
    exact isModified_setReg_same s .ip a

theorem exec_of_setReg_ip {i : Instr} {s : State} {a : Word}
    (h : effectOf i (advance i.opcode s) = .ok (setReg s .ip a)) : ∃ t, exec i s = .next t ∧ MovesIp s t a :=
  ⟨_, (exec_eq i s).trans (execute_of_ok h), movesIp_setReg_ip s a⟩

/-- Settles O20: JMP puts its target over the address that the advance wrote. -/
theorem jmpGoesToTarget : Obligations.JmpGoesToTarget := by
  unfold Obligations.JmpGoesToTarget
  intro target s
  rw [← wordBytes_eq_bigEndian]
  exact ⟨hasEncoding_of_encode_eq rfl, asmTargetLine_of_select rfl (fun _ => rfl) (fun _ _ => rfl) target,
    exec_of_setReg_ip (congrArg Except.ok (setReg_ip_advance .jmp s target))⟩

/-! ### The conditional jump of a relation (R214) -/

/-- The conditional jump that is taken where a relation holds, as the assembler chooses it. -/
def condInstr (rel : Relation) (reg : Reg) (target : Word) : Instr :=
  match rel with
  | .ne => .jmpNe reg target
  | .eq => .jmpEq reg target
  | .gt => .jmpGt reg target
  | .lt => .jmpLt reg target
  | .ge => .jmpGe reg target
  | .le => .jmpLe reg target

section
variable (rel : Relation) (reg : Reg) (target : Word)

theorem resolveInstr_cond (table : List (List Char × Nat)) (t : Target) :
    resolveInstr table (.cond rel reg t) =
      resolveTarget table t >>= fun a => .ok (condInstr rel reg a) := rfl

theorem effectOf_condInstr : effectOf (condInstr rel reg target) = condJump rel reg target := by
  cases rel <;> rfl

theorem condInstr_operands : (condInstr rel reg target).opcode.operands = [.register, .address] := by
  cases rel <;> rfl

theorem encode_condInstr : encode (condInstr rel reg target) =
    opcodeByte (condInstr rel reg target).opcode :: regByte reg :: wordBytes target := by
  cases rel <;> rfl

end

theorem selectInstr_cond_register (rel : Relation) (reg : Reg) (o : AsmOperand) :
    selectInstr (.cond rel) [.bare (regName reg), o] = targetOf o >>= fun t => .ok (.cond rel reg t) :=
  registerOf_regName_bind reg fun reg => targetOf o >>= fun t => .ok (AsmInstr.cond rel reg t)

/-- Where a register and then an address are the operands, the register's id is the only one to check. -/
theorem rejectsId_of_registerThenAddress {op : Opcode} {id : Byte} (hop : op.operands = [.register, .address])
    (target : Word) (hbad : 7 < id.toNat) : RejectsId (opcodeByte op :: id :: wordBytes target) 1 id := by
  have hlen : op.len = 6 := by rw [Opcode.len, hop]; rfl
  have hoffsets : regOffsets op = [1] := by rw [regOffsets, hop]; rfl
  exact rejectsId_of_firstRegister hlen.symm hoffsets (by simp) rfl hbad

/-- The comparison is made after the advance, so the register is read as an operand of an instruction of that
length (R137, R214). -/
theorem jumpCondition_advance (op : Opcode) (s : State) (rel : Relation) (reg : Reg) :
    jumpCondition (advance op s) rel reg =
      relationHolds rel (getReg s .acc) (operandValue s (BitVec.ofNat 32 op.len) reg) :=
  congrArg (relationHolds rel (getReg s .acc)) (getReg_advance_eq_operandValue op s reg)

theorem condJump_advance (op : Opcode) (s : State) (rel : Relation) (reg : Reg) (target : Word) :
    condJump rel reg target (advance op s) =
      .ok (setReg s .ip
        (if relationHolds rel (getReg s .acc) (operandValue s (BitVec.ofNat 32 op.len) reg) then target
          else getReg s .ip + BitVec.ofNat 32 op.len)) := by
  rw [condJump, jumpCondition_advance]
  split
  · exact congrArg Except.ok (setReg_ip_advance op s target)
  · exact congrArg Except.ok (advance_eq_setReg_ip op s)

theorem exec_condInstr (rel : Relation) (reg : Reg) (target : Word) (s : State) :
    ∃ t, exec (condInstr rel reg target) s = .next t ∧
      MovesIp s t (if relationHolds rel (getReg s .acc) (operandValue s 6 reg) then target
        else getReg s .ip + 6) := by
  have hlen : (condInstr rel reg target).opcode.len = 6 := by rw [Opcode.len, condInstr_operands]; rfl
  have heffect := condJump_advance (condInstr rel reg target).opcode s rel reg target
  rw [← effectOf_condInstr, hlen] at heffect
  exact exec_of_setReg_ip heffect

/-- What the statement of each conditional jump asks, for all six: `taken` is the statement's way to say that the
relation holds. -/
theorem condInstr_meets {rel : Relation} {name : List Char} {reg : Reg} {s : State} {taken : Prop} [Decidable taken]
    (hname : mnemonicOf name = .ok (.cond rel)) (target : Word)
    (htaken : relationHolds rel (getReg s .acc) (operandValue s 6 reg) = true ↔ taken) :
    let i := condInstr rel reg target
    HasEncoding i (opcodeByte i.opcode :: regByte reg :: bigEndian target) ∧
    AsmTargetLine name [.bare (regName reg)] target i ∧
    (∀ id : Byte, 7 < id.toNat → RejectsId (opcodeByte i.opcode :: id :: bigEndian target) 1 id) ∧
    ∃ t, exec i s = .next t ∧ MovesIp s t (if taken then target else getReg s .ip + 6) := by
  simp only [← wordBytes_eq_bigEndian, ← htaken]
  exact ⟨hasEncoding_of_encode_eq (encode_condInstr rel reg target),
    asmTargetLine_of_select hname (selectInstr_cond_register rel reg) (resolveInstr_cond rel reg) target,
    fun _ hid => rejectsId_of_registerThenAddress (condInstr_operands rel reg target) target hid,
    exec_condInstr rel reg target s⟩

/-! ### The six relations (R208 to R213) -/

/-- Settles O21: words differ exactly when their numbers do. -/
theorem jmpNeComparesAcc : Obligations.JmpNeComparesAcc := by
  unfold Obligations.JmpNeComparesAcc
  intro reg target s
  exact condInstr_meets (rel := .ne) rfl target (decide_eq_true_iff.trans BitVec.toNat_inj.not)

/-- Settles O22: words are equal exactly when their numbers are. -/
theorem jmpEqComparesAcc : Obligations.JmpEqComparesAcc := by
  unfold Obligations.JmpEqComparesAcc
  intro reg target s
  exact condInstr_meets (rel := .eq) rfl target (decide_eq_true_iff.trans BitVec.toNat_inj)

/-- Settles O23: ACC is the left operand, so JMP_GT asks for a register below it. -/
theorem jmpGtComparesAcc : Obligations.JmpGtComparesAcc := by
  unfold Obligations.JmpGtComparesAcc
  intro reg target s
  exact condInstr_meets (rel := .gt) rfl target decide_eq_true_iff

/-- Settles O24: ACC is the left operand, so JMP_LT asks for a register above it. -/
theorem jmpLtComparesAcc : Obligations.JmpLtComparesAcc := by
  unfold Obligations.JmpLtComparesAcc
  intro reg target s
  exact condInstr_meets (rel := .lt) rfl target decide_eq_true_iff

/-- Settles O25: ACC is the left operand, so JMP_GE asks for a register not above it. -/
theorem jmpGeComparesAcc : Obligations.JmpGeComparesAcc := by
  unfold Obligations.JmpGeComparesAcc
  intro reg target s
  exact condInstr_meets (rel := .ge) rfl target decide_eq_true_iff

/-- Settles O26: ACC is the left operand, so JMP_LE asks for a register not below it. -/
theorem jmpLeComparesAcc : Obligations.JmpLeComparesAcc := by
  unfold Obligations.JmpLeComparesAcc
  intro reg target s
  exact condInstr_meets (rel := .le) rfl target decide_eq_true_iff

end Sys2Proof.Machine
end

section
/-! CALL and RETURN (45_call_return.md): what the line and the bytes of each stand for, what each leaves, where each
faults, and that a RETURN undoes its CALL (R231). One predicate says that a frame stands in memory; CALL leaves it and
RETURN reads it, so their symmetry is a fact about the frame alone. -/

namespace Sys2Proof.Machine

/-! ### The frame (R227) -/

/-- The seven words from `a` up are the values of the frame's registers, the old FP the lowest and the return address
the highest. -/
def FrameAt (s : State) (a : Nat) (value : Reg → Word) : Prop :=
  ∀ k r, frameRegs.reverse[k]? = some r → wordAt s (a + 4 * k) = value r

theorem mem_frameRegs {r : Reg} (h : r ≠ .sp) : r ∈ frameRegs := by
  cases r
  case sp => exact absurd rfl h
  all_goals decide

theorem FrameAt.congr {s t : State} {a : Nat} {value : Reg → Word} (h : FrameAt s a value)
    (hsame : ∀ b, a ≤ b → b < a + 28 → t.mem.readByte b = s.mem.readByte b) : FrameAt t a value := by
  intro k r hk
  have hin : k < 7 := (List.getElem?_eq_some_iff.1 hk).1
  rw [← h k r hk]
  exact wordAt_congr fun b hlo hhi => hsame b (by omega) (by omega)

/-- A frame gives every register but SP one value. -/
theorem FrameAt.value_eq {s : State} {a : Nat} {value value' : Reg → Word} {r : Reg} (h : FrameAt s a value)
    (h' : FrameAt s a value') (hr : r ≠ .sp) : value r = value' r := by
  obtain ⟨k, hk⟩ := List.mem_iff_getElem?.1 (List.mem_reverse.2 (mem_frameRegs hr))
  exact (h k r hk).symm.trans (h' k r hk)

/-! ### Where a row of pushes and a row of pops fault (R226, R228) -/

theorem exists_push_of_fits {s : State} (v : Word) (hfit : (getReg s .sp - 4).toNat + 4 ≤ s.memSize) :
    ∃ t, push s v = .ok t ∧ getReg t .sp = getReg s .sp - 4 ∧ t.memSize = s.memSize :=
  ⟨_, (push_eq s v).trans (if_pos hfit), getReg_setReg_same _ _ _, rfl⟩

theorem exists_popInto_of_fits {s : State} {r : Reg} (hr : .sp ≠ r) (hfit : (getReg s .sp).toNat + 4 ≤ s.memSize) :
    ∃ t, popInto s r = .ok t ∧ getReg t .sp = getReg s .sp + 4 ∧ t.memSize = s.memSize :=
  ⟨_, (popInto_eq s r).trans (if_pos hfit), (getReg_setReg_other _ _ hr).trans (getReg_setReg_same _ _ _), rfl⟩

theorem pushAll_of_firstOverrun {s : State} (v : Word) (vs : List Word)
    (hout : s.memSize < (getReg s .sp - 4).toNat + 4) :
    pushAll s (v :: vs) = .error (.memOutOfBounds (getReg s .sp - 4).toNat 4) := by
  rw [pushAll, push_eq, if_neg (Nat.not_le.2 hout), except_error_bind]

/-- From inside memory, the push that faults is the one that would take SP below 0: SP is by then what is left of
it modulo 4. -/
theorem pushAll_of_tooLow {s : State} {vs : List Word} (hlow : (getReg s .sp).toNat < 4 * vs.length)
    (hin : (getReg s .sp).toNat ≤ s.memSize) (hsize : s.memSize < 2 ^ 32) :
    pushAll s vs = .error (.memOutOfBounds (2 ^ 32 - 4 + (getReg s .sp).toNat % 4) 4) := by
  induction vs generalizing s with
  | nil => exact absurd hlow (Nat.not_lt_zero _)
  | cons v vs ih =>
    by_cases hwrap : (getReg s .sp).toNat < 4
    · have haddr : (getReg s .sp - 4).toNat = 2 ^ 32 - 4 + (getReg s .sp).toNat % 4 := by bv_omega
      rw [pushAll_of_firstOverrun v vs (by omega), haddr]
    · have haddr : (getReg s .sp - 4).toNat = (getReg s .sp).toNat - 4 := by bv_omega
      have hmod : ((getReg s .sp).toNat - 4) % 4 = (getReg s .sp).toNat % 4 := by omega
      obtain ⟨t, ht, hsp, hsame⟩ := exists_push_of_fits v (by omega : (getReg s .sp - 4).toNat + 4 ≤ s.memSize)
      rw [List.length_cons] at hlow
      have hnew : (getReg t .sp).toNat = (getReg s .sp).toNat - 4 := by rw [hsp, haddr]
      rw [pushAll, ht, except_ok_bind, ih (by omega) (by omega) (by omega), hnew, hmod]

/-- The pop that faults is the first that does not fit. -/
theorem popAll_of_overrun {s : State} {rs : List Reg} {k : Nat} (hsp : .sp ∉ rs) (hk : k < rs.length)
    (hfit : k = 0 ∨ (getReg s .sp).toNat + 4 * k ≤ s.memSize) (hout : s.memSize < (getReg s .sp).toNat + 4 * k + 4)
    (hsize : s.memSize < 2 ^ 32) :
    popAll s rs = .error (.memOutOfBounds ((getReg s .sp).toNat + 4 * k) 4) := by
  induction rs generalizing s k with
  | nil => exact absurd hk (Nat.not_lt_zero k)
  | cons r rs ih =>
    simp only [List.mem_cons, not_or] at hsp
    obtain ⟨hne, hrest⟩ := hsp
    cases k with
    | zero => rw [popAll, popInto_eq, if_neg (Nat.not_le.2 hout), except_error_bind]; rfl
    | succ k =>
      have hroom := hfit.resolve_left k.succ_ne_zero
      have hhigh : (getReg s .sp + 4).toNat = (getReg s .sp).toNat + 4 := by bv_omega
      obtain ⟨t, ht, hsp, hsame⟩ := exists_popInto_of_fits hne (by omega : (getReg s .sp).toNat + 4 ≤ s.memSize)
      have haddr : (getReg t .sp).toNat + 4 * k = (getReg s .sp).toNat + 4 * (k + 1) := by rw [hsp, hhigh]; omega
      rw [← hsame, ← haddr] at hroom hout
      rw [popAll, ht, except_ok_bind, ← haddr]
      exact ih hrest (Nat.lt_of_succ_lt_succ hk) (.inr hroom) hout (hsame ▸ hsize)

/-! ### CALL (R226) -/

/-- What a completed CALL leaves: the frame below the old SP, SP and FP at it, IP at the target, and all else as it
was. -/
def EntersCall (s t : State) (target : Word) : Prop :=
  getReg t .ip = target ∧ getReg t .sp = getReg s .sp - 28 ∧ getReg t .fp = getReg s .sp - 28 ∧
    FrameAt t ((getReg s .sp).toNat - 28) (operandValue s 5) ∧
    (∀ a, a < (getReg s .sp).toNat - 28 ∨ (getReg s .sp).toNat ≤ a → t.mem.readByte a = s.mem.readByte a) ∧
    SameRegsBut s t [.sp, .fp, .ip] ∧ MarksModified t [.sp, .fp, .ip] ∧ SameControl s t

theorem exec_call_of_fits {s : State} (target : Word) (hlow : 28 ≤ (getReg s .sp).toNat)
    (hhigh : (getReg s .sp).toNat ≤ s.memSize) : ∃ t, exec (.call target) s = .next t ∧ EntersCall s t target := by
  obtain ⟨u, hu, husp, -, humark, -, huwords, huout⟩ :=
    pushAll_ok (advance .call s) (frameRegs.map (sourceValue (advance .call s))) hlow hhigh
  have heffect : effectOf (.call target) (advance .call s) =
      .ok (setReg (setReg u .fp (getReg u .sp)) .ip target) := congrArg (· >>= _) hu
  refine ⟨_, (exec_eq _ s).trans (execute_of_ok heffect), getReg_setReg_same _ _ _, husp, husp, ?frame, huout,
    sameRegsBut_of_effectOf heffect (by simp) (by simp [writtenRegs]), ?marks,
    sameControl_of_effectOf heffect (by simp)⟩
  case frame =>
    intro k r hk
    have hin : k < 7 := (List.getElem?_eq_some_iff.1 hk).1
    rw [List.getElem?_reverse hin] at hk
    have haddr : (getReg s .sp).toNat - 28 + 4 * k = (getReg s .sp).toNat - 4 * (7 - 1 - k + 1) := by omega
    rw [haddr]
    exact (huwords _ _ (by rw [List.getElem?_map]; exact congrArg _ hk)).trans
      (getReg_advance_eq_operandValue .call s r)
  case marks =>
    simp [MarksModified, isModified_setReg, humark (List.cons_ne_nil _ _)]

theorem takesFault_call {s : State} {f : FaultCause} (target : Word)
    (h : pushAll (advance .call s) (frameRegs.map (sourceValue (advance .call s))) = .error f) :
    TakesFault (.call target) s f :=
  takesFault_of_effectOf (congrArg (· >>= _) h)

/-- Settles O27: CALL is seven pushes and two register writes, and faults where the row of pushes does. -/
theorem callPushesFrame : Obligations.CallPushesFrame := by
  unfold Obligations.CallPushesFrame
  intro target s S
  rw [← wordBytes_eq_bigEndian]
  refine ⟨hasEncoding_of_encode_eq rfl,
    asmTargetLine_of_select rfl (fun _ => rfl) (fun _ _ => rfl) target, fun hlow hhigh => ?completes,
    fun habove hsize => takesFault_call target (pushAll_of_firstOverrun _ _ ?above),
    fun hlow hin hsize => takesFault_call target (pushAll_of_tooLow hlow hin hsize)⟩
  case completes =>
    obtain ⟨t, ht, hip, hsp, hfp, hframe, hrest⟩ := exec_call_of_fits target hlow hhigh
    have hword {k : Nat} {r : Reg} (hk : frameRegs.reverse[k]? = some r) :
        wordAt t (S - (28 - 4 * k)) = operandValue s 5 r := by
      have hin : k < 7 := (List.getElem?_eq_some_iff.1 hk).1
      rw [← hframe k r hk]
      congr 1
      omega
    exact ⟨t, ht, hip, hsp, hfp, hword (k := 6) rfl, hword (k := 5) rfl, hword (k := 4) rfl, hword (k := 3) rfl,
      hword (k := 2) rfl, hword (k := 1) rfl, hword (k := 0) rfl, hrest⟩
  case above =>
    change s.memSize < (getReg s .sp - 4).toNat + 4
    bv_omega

/-! ### RETURN (R228) -/

/-- What a completed RETURN leaves: the registers as the frame at FP has them, SP above the frame, and memory as it
was. -/
def LeavesCall (s t : State) : Prop :=
  getReg t .sp = getReg s .fp + 28 ∧ FrameAt s (getReg s .fp).toNat (getReg t) ∧ SameMemory s t ∧
    MarksModified t Reg.all ∧ SameControl s t

/-- No register stands in the frame twice, so no later pop overwrites it. -/
theorem not_mem_drop_frameRegs {k : Nat} {r : Reg} (hk : frameRegs.reverse[k]? = some r) :
    r ∉ frameRegs.reverse.drop (k + 1) := by
  have hnodup : frameRegs.reverse.Nodup := by decide
  have htake : r ∈ frameRegs.reverse.take (k + 1) :=
    List.mem_iff_getElem?.2 ⟨k, (List.getElem?_take_of_lt (Nat.lt_succ_self k)).trans hk⟩
  exact List.disjoint_take_drop hnodup le_rfl htake

theorem exec_ret_of_fits {s : State} (hfit : (getReg s .fp).toNat + 28 ≤ s.memSize)
    (hsize : (getReg s .fp).toNat + 28 ≤ 2 ^ 32) : ∃ t, exec .ret s = .next t ∧ LeavesCall s t := by
  obtain ⟨t, ht, hsp, -, hmarks, hcontrol, hmem, hwords⟩ :=
    popAll_ok (setReg (advance .ret s) .sp (getReg s .fp)) frameRegs.reverse (by decide) hfit hsize
  refine ⟨t, (exec_eq .ret s).trans (execute_of_ok ht), hsp,
    fun k r hk => (hwords k r hk (not_mem_drop_frameRegs hk)).symm, fun a => by rw [hmem]; rfl, fun r _ => ?marks,
    hcontrol⟩
  case marks =>
    by_cases hr : r = .sp
    · exact hmarks r (.inr ⟨hr, by decide⟩)
    · exact hmarks r (.inl (List.mem_reverse.2 (mem_frameRegs hr)))

/-- Settles O28: RETURN is a write of SP and seven pops, and faults where the row of pops does. -/
theorem returnPopsFrame : Obligations.ReturnPopsFrame := by
  unfold Obligations.ReturnPopsFrame
  intro s F
  refine ⟨hasEncoding_of_encode_eq rfl, asmLine_of_select rfl rfl, fun hfit hsize => ?completes,
    fun hsize k hk hfits hout => takesFault_of_effectOf
      (popAll_of_overrun (s := setReg (advance .ret s) .sp (getReg s .fp)) (by decide) hk hfits hout hsize)⟩
  case completes =>
    obtain ⟨t, ht, hsp, hframe, hrest⟩ := exec_ret_of_fits hfit (hfit.trans hsize)
    have hword {k : Nat} {r : Reg} (hk : frameRegs.reverse[k]? = some r) : getReg t r = wordAt s (F + 4 * k) :=
      (hframe k r hk).symm
    exact ⟨t, ht, hsp, hword (k := 0) rfl, hword (k := 1) rfl, hword (k := 2) rfl, hword (k := 3) rfl,
      hword (k := 4) rfl, hword (k := 5) rfl, hword (k := 6) rfl, hrest⟩

/-! ### The symmetry of the two (R231) -/

/-- Settles O52: the frame that CALL leaves is the frame that RETURN reads, so both give it the same values. -/
theorem returnUndoesCall : Obligations.ReturnUndoesCall := by
  unfold Obligations.ReturnUndoesCall
  intro target s t u hlow hhigh hcall hsize hfp hbytes
  obtain ⟨t', ht', -, -, htfp, hframe, -⟩ := exec_call_of_fits target hlow hhigh
  obtain rfl : t = t' := Host.Outcome.next.inj (hcall.symm.trans ht')
  have hufp : getReg u .fp = getReg s .sp - 28 := hfp.trans htfp
  have hbase : (getReg u .fp).toNat = (getReg s .sp).toNat - 28 := by rw [hufp]; bv_omega
  have htop := (getReg s .sp).isLt
  obtain ⟨v, hv, hvsp, hvframe, hmem, -⟩ := exec_ret_of_fits (s := u) (by omega) (by omega)
  rw [hbase] at hvframe
  have hrestored {r : Reg} (hr : r ≠ .sp) : getReg v r = operandValue s 5 r :=
    hvframe.value_eq (hframe.congr fun b hlo hhi => hbytes b hlo (by omega)) hr
  refine ⟨v, hv, fun r hip => ?_, hrestored (by decide), hmem⟩
  by_cases hr : r = .sp
  · rw [hr, hvsp, hufp, BitVec.sub_add_cancel]
  · rw [hrestored hr, operandValue, if_neg hip]

end Sys2Proof.Machine
end

section
/-! Faults are precise (60_exceptions.md R250): a step that leaves a fault recorded took it in the state the step
began in, for a completed instruction records none. -/

namespace Sys2Proof.Machine

/-- A fault is only recorded by `raiseFault`: the effect of an instruction that completes keeps the record. -/
theorem fault_eq_of_effectOf {i : Instr} {s t : State} (h : effectOf i (advance i.opcode s) = .ok t) :
    t.fault = s.fault := by
  obtain ⟨-, -, hfault, -⟩ := effectOf_next h
  rw [hfault, advance_fault]

/-- Settles O32: of the ways a step can end only taking a fault leaves one in a machine that was clean. -/
theorem faultsArePrecise : Obligations.FaultsArePrecise := by
  unfold Obligations.FaultsArePrecise
  intro s t f hrun hclean h hfault
  rcases step_running_cases hrun h with ⟨g, rfl, -⟩ | ⟨i, -, hdone⟩
  case inl =>
    obtain rfl : g = f := Option.some.inj hfault
    exact ⟨rfl, stillRunning_of_halted rfl⟩
  case inr =>
    have hnone : t.fault = none := (fault_eq_of_effectOf hdone).trans hclean
    rw [hnone] at hfault
    cases hfault

end Sys2Proof.Machine
end
